-- ==== Sys2Proof/Word.lean ====
section
/-! DEFINITION. The two word types of the hardware: a bus or framebuffer byte and a request word. -/

namespace Sys2Proof

/-- A byte of the framebuffer, of the display RAM or of a bus transaction (R50, R80, R82). -/
abbrev Byte := BitVec 8

/-- A request word `REQ32` (R70). -/
abbrev Word := BitVec 32

end Sys2Proof
end

