-- ==== Sys2Proof/Config.lean ====
section
/-! DEFINITION. What is fixed for the machine (R7) and the free values the spec leaves open (R10).

An `opaque` constant below has no body: nothing can be proved of its value, so a statement about the model holds for
every value of it. A free value that may differ each time it is drawn is a function of a draw counter held in State. -/

namespace Sys2Proof

/-- The level of a line (R30). `CS` and `RST` are active low; `DC` low is command, `DC` high is data. -/
inductive Level where
  | low
  | high
deriving DecidableEq, Repr, Inhabited

/-- The two transaction kinds, `CMD` and `DATA` of `Txn` (R100). -/
inductive BusMode where
  | command
  | data
deriving DecidableEq, Repr, Inhabited

/-- The transport's answer to one bus event (R101, R104). `err k`: the transport reports an error and, in a transaction,
`k` bytes reached the controller (a `k` above the transaction's length counts as its length). -/
inductive Answer where
  | ok
  | err (k : Nat)
deriving DecidableEq, Repr, Inhabited

namespace Config

/-- `COLS` (R7). -/
abbrev cols : Nat := 84
/-- `ROWS` (R7). -/
abbrev rows : Nat := 48
/-- `BANK_H` (R7). -/
abbrev bankH : Nat := 8
/-- `BANKS` (R7). -/
abbrev banks : Nat := 6
/-- `FB_BYTES` (R7, R50). -/
abbrev fbBytes : Nat := 504

/-- `BIAS` (R7, decision D5): the bias value INIT sends. -/
def bias : BitVec 3 := 4#3

/-- `CONTRAST_DEFAULT` (R7, R129): the contrast a host with no setting of its own puts in the INIT word. -/
def contrastDefault : BitVec 7 := 0x40#7

/-- `T_RST_LOW` (R7, R128, R285): OPEN. No rule reads it. -/
opaque tRstLow : Nat
/-- `T_RST_RECOVER` (R7, R128, R285): OPEN. No rule reads it. -/
opaque tRstRecover : Nat
/-- `PIXEL_ON_DARK` (R7, R51, R226): OPEN. Only the image on the glass reads it. -/
opaque pixelOnDark : Bool

/-- The transport's answer to a bus event for which no answer was supplied (R10, R101, R104). -/
opaque freeAnswer : Nat → Answer
/-- The level left on `RST` by a failed pin operation (R104). -/
opaque freeRst : Nat → Level

/-- The controller's fields while unspecified (R201, R104, R224, R230). -/
opaque freeH : Nat → Bool
opaque freePd : Nat → Bool
opaque freeV : Nat → Bool
opaque freeBs : Nat → BitVec 3
opaque freeVop : Nat → BitVec 7
opaque freeTc : Nat → BitVec 2
opaque freeD : Nat → Bool
opaque freeE : Nat → Bool
/-- The column counter while unspecified, in its legal range 0..83 (R200, R201). DEDUCED (log 7). -/
opaque freeX : Nat → Fin 84
/-- The bank counter while unspecified, in its legal range 0..5 (R200, R201). DEDUCED (log 7). -/
opaque freeY : Nat → Fin 6
/-- The display RAM byte at an address while unspecified (R201, R104): a draw for each draw number and address. -/
opaque freeRam : Nat → Nat → Byte

/-- `WRAP_BANK` (R7, R222): the bank counter after a column wrap, a draw each time. -/
opaque wrapBank : Nat → Fin 6

end Config

end Sys2Proof
end

