-- ==== Sys2Proof/Syntax.lean ====
section
/-! DEFINITION. The instructions: one constructor per row of spec/opcode_table.json. -/

namespace Sys2Proof

/-- The five requests (R71), the eight controller commands (R80) and the data byte (R82).

Coordinates are the integers a request stands for after `sint` (R73, R140). A controller operand is its field as the
byte holds it, out-of-range values included: R214 and R215 say what those do. -/
inductive Instr where
  | init (inv : Bool) (contrast : BitVec 7)
  | setPixel (x y : Int) (on : Bool)
  | clear
  | readPixel (x y : Int)
  | flush
  | nop
  | functionSet (pd v h : Bool)
  | displayControl (d e : Bool)
  | setY (y : BitVec 3)
  | setX (x : BitVec 7)
  | tempControl (tc : BitVec 2)
  | setBias (bs : BitVec 3)
  | setVop (vop : BitVec 7)
  | data (v : Byte)
deriving DecidableEq, Repr

/-- The rows of format `REQ32`: what the request port carries (R71). -/
def Instr.isRequest : Instr → Bool
  | .init _ _ => true
  | .setPixel _ _ _ => true
  | .clear => true
  | .readPixel _ _ => true
  | .flush => true
  | .nop => false
  | .functionSet _ _ _ => false
  | .displayControl _ _ => false
  | .setY _ => false
  | .setX _ => false
  | .tempControl _ => false
  | .setBias _ => false
  | .setVop _ => false
  | .data _ => false

end Sys2Proof
end

