-- ==== Sys2Proof/WellFormed.lean ====
section
/-! DEFINITION. Which terms of `Instr` some encoding stands for, and in which controller mode. -/

namespace Sys2Proof

/-- A coordinate a 12-bit two's-complement field can hold (R73). -/
def coordFits (c : Int) : Bool := decide (-2048 ≤ c ∧ c ≤ 2047)

/-- Well-formed: every operand fits its field. The bit-vector operands do by their types; coordinates are checked. -/
def Instr.wf : Instr → Bool
  | .init _ _ => true
  | .setPixel x y _ => coordFits x && coordFits y
  | .clear => true
  | .readPixel x y => coordFits x && coordFits y
  | .flush => true
  | .nop => true
  | .functionSet _ _ _ => true
  | .displayControl _ _ => true
  | .setY _ => true
  | .setX _ => true
  | .tempControl _ => true
  | .setBias _ => true
  | .setVop _ => true
  | .data _ => true

/-- The mode column of R80: is this instruction's byte decoded as it when the controller's mode bit is `h`?
DISPLAY_CONTROL is a basic-mode row whose pattern keeps its name in extended mode, where R224 gives its effect (R205).
Requests and data bytes do not depend on the mode. -/
def Instr.decodedIn (h : Bool) : Instr → Bool
  | .init _ _ => true
  | .setPixel _ _ _ => true
  | .clear => true
  | .readPixel _ _ => true
  | .flush => true
  | .nop => true
  | .functionSet _ _ _ => true
  | .displayControl _ _ => true
  | .setY _ => !h
  | .setX _ => !h
  | .tempControl _ => h
  | .setBias _ => h
  | .setVop _ => h
  | .data _ => true

end Sys2Proof
end

