-- ==== Sys2Proof/Decode.lean ====
section
/-! DEFINITION. Decoding, total on every word and byte, and the encoder.

`decodeRequest` is written from the field table of R70 and R71; `decodeCommand` from the bit patterns of R80.
The match and mask columns of R72 and R80 are statements about them, not their text. -/

namespace Sys2Proof

/-- One encoded instruction: a request word, or a byte at a DC level (30_encoding.md §1). -/
inductive Code where
  | request (w : Word)
  | command (b : Byte)
  | data (b : Byte)
deriving DecidableEq, Repr

/-- What decoding answers: an instruction, or the code rejected by name. -/
inductive Decoded where
  | instr (i : Instr)
  /-- `ILLEGAL_REQUEST` (R72, R90). -/
  | illegalRequest (w : Word)
  /-- A reserved command byte (R91). -/
  | reservedByte (b : Byte)
deriving DecidableEq, Repr

/-- The instruction, where there is one. -/
def Decoded.instr? : Decoded → Option Instr
  | .instr i => some i
  | .illegalRequest _ => none
  | .reservedByte _ => none

/-- The `OP` field (R70). -/
def reqOp (w : Word) : BitVec 4 := w.extractLsb' 28 4
/-- The bits 27:25, zero in every request (R70). -/
def reqZero (w : Word) : BitVec 3 := w.extractLsb' 25 3
/-- The `ON` field (R70). -/
def reqOn (w : Word) : Bool := w.getLsbD 24
/-- The `Y` field (R70). -/
def reqY (w : Word) : BitVec 12 := w.extractLsb' 12 12
/-- The `X` field (R70). -/
def reqX (w : Word) : BitVec 12 := w.extractLsb' 0 12
/-- The `INV` field of INIT, which overlaps `X[8]` (R70). -/
def reqInv (w : Word) : Bool := w.getLsbD 8
/-- The `CONTRAST` field of INIT, which overlaps `X[6:0]` (R70). -/
def reqContrast (w : Word) : BitVec 7 := w.extractLsb' 0 7

/-- Request decode, total (R72): the request `OP` selects when every bit R70 requires to be 0 is 0, else illegal (R90). -/
def decodeRequest (w : Word) : Decoded :=
  if reqOp w = 0b0001#4 then
    if w.extractLsb' 9 19 = 0#19 ∧ w.getLsbD 7 = false then .instr (.init (reqInv w) (reqContrast w)) else .illegalRequest w
  else if reqOp w = 0b0010#4 then
    if reqZero w = 0#3 then .instr (.setPixel (reqX w).toInt (reqY w).toInt (reqOn w)) else .illegalRequest w
  else if reqOp w = 0b0011#4 then
    if w.extractLsb' 0 28 = 0#28 then .instr .clear else .illegalRequest w
  else if reqOp w = 0b0100#4 then
    if reqZero w = 0#3 ∧ reqOn w = false then .instr (.readPixel (reqX w).toInt (reqY w).toInt) else .illegalRequest w
  else if reqOp w = 0b0101#4 then
    if w.extractLsb' 0 28 = 0#28 then .instr .flush else .illegalRequest w
  else .illegalRequest w

/-- Command decode in mode `h` (false basic, true extended), by the bit patterns of R80. The DISPLAY_CONTROL pattern keeps
its name in extended mode, where R224 applies (R205). Every other byte is reserved (R91). -/
def decodeCommand (h : Bool) (b : Byte) : Decoded :=
  if b.getLsbD 7 then
    -- 1XXX XXXX
    if h then .instr (.setVop (b.extractLsb' 0 7)) else .instr (.setX (b.extractLsb' 0 7))
  else if b.extractLsb' 3 4 = 0b0100#4 then
    -- 0010 0PVH
    .instr (.functionSet (b.getLsbD 2) (b.getLsbD 1) (b.getLsbD 0))
  else if b.extractLsb' 3 4 = 0b0001#4 ∧ b.getLsbD 1 = false then
    -- 0000 1D0E
    .instr (.displayControl (b.getLsbD 2) (b.getLsbD 0))
  else if b.extractLsb' 3 4 = 0b1000#4 ∧ h = false then
    -- 0100 0YYY
    .instr (.setY (b.extractLsb' 0 3))
  else if b.extractLsb' 3 4 = 0b0010#4 ∧ h = true then
    -- 0001 0BBB
    .instr (.setBias (b.extractLsb' 0 3))
  else if b.extractLsb' 2 5 = 0b00001#5 ∧ h = true then
    -- 0000 01TT
    .instr (.tempControl (b.extractLsb' 0 2))
  else if b.extractLsb' 0 7 = 0#7 then
    -- 0000 0000
    .instr .nop
  else .reservedByte b

/-- Decode any code against the controller's mode bit `h` (R72, R80, R82, R205). -/
def decode (h : Bool) : Code → Decoded
  | .request w => decodeRequest w
  | .command b => decodeCommand h b
  | .data b => .instr (.data b)

/-- A 12-bit two's-complement coordinate field (R73). -/
def coordBits (c : Int) : BitVec 12 := BitVec.ofInt 12 c

/-- The code of an instruction, field by field from bit 31 (or 7) down, as R70 and R80 lay it out. -/
def encode : Instr → Code
  | .init inv contrast => .request (0b0001#4 ++ 0#19 ++ BitVec.ofBool inv ++ 0#1 ++ contrast)
  | .setPixel x y on => .request (0b0010#4 ++ 0#3 ++ BitVec.ofBool on ++ coordBits y ++ coordBits x)
  | .clear => .request (0b0011#4 ++ 0#28)
  | .readPixel x y => .request (0b0100#4 ++ 0#4 ++ coordBits y ++ coordBits x)
  | .flush => .request (0b0101#4 ++ 0#28)
  | .nop => .command 0#8
  | .functionSet pd v h => .command (0b00100#5 ++ BitVec.ofBool pd ++ BitVec.ofBool v ++ BitVec.ofBool h)
  | .displayControl d e => .command (0b00001#5 ++ BitVec.ofBool d ++ 0#1 ++ BitVec.ofBool e)
  | .setY y => .command (0b01000#5 ++ y)
  | .setX x => .command (0b1#1 ++ x)
  | .tempControl tc => .command (0b000001#6 ++ tc)
  | .setBias bs => .command (0b00010#5 ++ bs)
  | .setVop vop => .command (0b1#1 ++ vop)
  | .data v => .data v

/-- The request word of a request, which a fault records (R241); 0 for what is no request. -/
def requestWord (i : Instr) : Word :=
  match encode i with
  | .request w => w
  | .command _ => 0#32
  | .data _ => 0#32

/-- The mode in which a byte of the opcode table is read: basic, or extended where the byte is reserved in basic mode. A byte
alone does not say its mode: 0x80 is SET_X in basic mode and SET_VOP in extended mode. DESIGN CHOICE (log 12). -/
def tableMode (b : Byte) : Bool :=
  match decodeCommand false b with
  | .instr _ => false
  | .illegalRequest _ => true
  | .reservedByte _ => true

/-- The instruction read from a table row's bits: 32 bits are a request word, 8 bits a command byte (log 12). -/
def decodeTableWord (nbits w : Nat) : Option Instr :=
  if nbits = 32 then
    if w < 2 ^ 32 then (decodeRequest (BitVec.ofNat 32 w)).instr? else none
  else if nbits = 8 then
    if w < 2 ^ 8 then (decodeCommand (tableMode (BitVec.ofNat 8 w)) (BitVec.ofNat 8 w)).instr? else none
  else none

end Sys2Proof
end

