-- ==== Sys2Proof/Machine/State.lean ====
section
/-! DEFINITION. The state of the machine as plain data (10_state.md, 44_controller_commands.md R200), the stops of a step and the
state after block reset. -/

namespace Sys2Proof.Machine

/-- `PHASE` (R20). -/
inductive Phase where
  | uninit
  | ready
  | failed
deriving DecidableEq, Repr

/-- The fault reasons of the `FAULT` register (R241). -/
inductive FaultReason where
  | illegalRequest
  | notInitialized
  | reinit
  | useAfterFail
deriving DecidableEq, Repr

/-- The code of a fault reason (R241). -/
def FaultReason.code : FaultReason → Nat
  | .illegalRequest => 1
  | .notInitialized => 2
  | .reinit => 3
  | .useAfterFail => 4

/-- What `FAULT` holds when it is not `NONE`: the reason and the request word (R28, R241). -/
structure FaultRecord where
  reason : FaultReason
  word   : Word
deriving DecidableEq, Repr

/-- A response status (R240). -/
inductive Status where
  | ok
  | transportError
deriving DecidableEq, Repr

/-- The code of a status (R240). -/
def Status.code : Status → Nat
  | .ok => 0
  | .transportError => 1

/-- One response on the response port (R29, R240). -/
structure Response where
  status : Status
  value  : Bool
deriving DecidableEq, Repr

/-- The transport's verdict on one bus event (R101, R104). -/
inductive TransportResult where
  | ok
  | err
deriving DecidableEq, Repr

/-- One event of the bus trace: `RstEv(level, r)` or `TxnEv(dc, bytes, r)` (R106). -/
inductive BusEvent where
  | rst (level : Level) (r : TransportResult)
  | txn (dc : BusMode) (bytes : List Byte) (r : TransportResult)
deriving DecidableEq, Repr

/-- A memory: the listed cells, addresses strictly rising. What an unlisted address reads as is the reader's to say: 0x00 in
the framebuffer (R50), a free value in the display RAM (R201). -/
abbrev Memory := List Host.Cell

/-- The target controller (R200), with the refusal mark of R230. -/
structure Ctl where
  /-- instruction mode: false basic, true extended -/
  h        : Bool
  /-- power-down -/
  pd       : Bool
  /-- addressing direction: false horizontal -/
  v        : Bool
  /-- bias value -/
  bs       : BitVec 3
  /-- operating voltage (contrast) -/
  vop      : BitVec 7
  /-- temperature coefficient -/
  tc       : BitVec 2
  /-- display mode, high bit -/
  d        : Bool
  /-- display mode, low bit -/
  e        : Bool
  /-- column address counter: 7 bits, legal 0..83 -/
  x        : Fin 84
  /-- bank address counter: 3 bits, legal 0..5 -/
  y        : Fin 6
  /-- `DRAM`: the bytes written since it was last unspecified, byte (b, c) at address b * 84 + c -/
  ram      : Memory
  /-- the model's own: which draw a byte not in `ram` reads as (log 16) -/
  ramEpoch : Nat
  /-- the refusal mark, kept for the whole run (R230) -/
  refusal  : Bool
  /-- the model's own: how many draws of the controller's free values were made (log 3) -/
  draws    : Nat
deriving DecidableEq, Repr

/-- Every field of R200 an unspecified value, draw number `n` (R201). -/
def Ctl.drawn (n : Nat) (refusal : Bool) : Ctl where
  h        := Config.freeH n
  pd       := Config.freePd n
  v        := Config.freeV n
  bs       := Config.freeBs n
  vop      := Config.freeVop n
  tc       := Config.freeTc n
  d        := Config.freeD n
  e        := Config.freeE n
  x        := Config.freeX n
  y        := Config.freeY n
  ram      := []
  ramEpoch := n
  refusal  := refusal
  draws    := n + 1

/-- The machine: the sequencer's registers, framebuffer and pins (R20 to R30, R50), its ports and trace (R29, R106), the
target controller (R200), and the inputs still to come. -/
structure State where
  /-- `PHASE` (R20) -/
  phase          : Phase
  /-- `CFG_INV` (R23) -/
  cfgInv         : Bool
  /-- `CFG_CONTRAST` (R24) -/
  cfgContrast    : BitVec 7
  /-- the framebuffer, `fb[a]` at address a = bank * 84 + column; an unlisted address reads 0x00 (R50) -/
  fb             : Memory
  /-- `D_EMPTY` (R26) -/
  dEmpty         : Bool
  /-- `D_BMIN`: 3 bits, values 0..5 (R26) -/
  dBmin          : Fin 6
  /-- `D_BMAX`: 3 bits, values 0..5 (R26) -/
  dBmax          : Fin 6
  /-- `D_CMIN`: 7 bits, values 0..83 (R26) -/
  dCmin          : Fin 84
  /-- `D_CMAX`: 7 bits, values 0..83 (R26) -/
  dCmax          : Fin 84
  /-- `FAULT`, `none` for `NONE` (R28) -/
  faultReg       : Option FaultRecord
  /-- the `RST` pin (R30) -/
  rst            : Level
  /-- the `CS` pin, asserted low (R30) -/
  cs             : Level
  /-- the `DC` pin, low command, high data (R30) -/
  dc             : Level
  /-- the bus trace, oldest first (R106) -/
  trace          : List BusEvent
  /-- the response port: the responses since reset, oldest first (R29, R240) -/
  responses      : List Response
  /-- the target controller (R200) -/
  ctl            : Ctl
  /-- the request port: the words the host has still to present, next first (R29) -/
  requests       : List Word
  /-- the transport's answers still to come, next first (R29, R101, R104); once used up, answers are free values -/
  answers        : List Answer
  /-- the model's own: how many free transport values were drawn (log 4) -/
  transportDraws : Nat
  /-- the model's own: bytes a bench puts on the controller's serial input (log 12) -/
  busIn          : List Byte
deriving DecidableEq, Repr

/-- Why a step stops with a fault. -/
inductive Fault where
  /-- `FAULT` is not `NONE`: the block takes no step (R28, R242, R247). Raised by `step` and by the admission check of every
  request. SAFE: the spec gives no step here. -/
  | halted (r : FaultRecord)
deriving DecidableEq, Repr

/-- Why a step is refused. -/
inductive Refusal where
  /-- An instruction `exec` gives no meaning. No arm raises it. SAFE. -/
  | notModelled (mnemonic : String)
  /-- The run carries the refusal mark of R230: "no claim is made about a run that carries it". Raised by `step` alone.
  SAFE: no run goes on from such a state. -/
  | markedRun
deriving DecidableEq, Repr

/-- The machine right after block reset (R271). `CFG_INV`, `CFG_CONTRAST` (log 1) and the dirty bounds (log 2) are named values,
DESIGN CHOICE: the spec leaves them unspecified and reads none. The controller is draw number 0 (log 3). No request is
pending, no answer supplied and no bench byte waits. -/
def State.reset : State where
  phase          := .uninit
  cfgInv         := false
  cfgContrast    := 0#7
  fb             := []
  dEmpty         := true
  dBmin          := 0
  dBmax          := 0
  dCmin          := 0
  dCmax          := 0
  faultReg       := none
  rst            := .high
  cs             := .high
  dc             := .low
  trace          := []
  responses      := []
  ctl            := Ctl.drawn 0 false
  requests       := []
  answers        := []
  transportDraws := 0
  busIn          := []

end Sys2Proof.Machine
end

