-- ==== Sys2Proof/Machine/Ops.lean ====
section
/-! DEFINITION. The named operations over memory, registers and ports, the admission check and the raising of a fault. -/

namespace Sys2Proof.Machine

/-! ## Memory -/

/-- The byte at address `a`, or `dflt` where `a` is not listed. -/
def Memory.read (dflt : Byte) (a : Nat) : Memory → Byte
  | [] => dflt
  | (k, v) :: rest => if k = a then v else Memory.read dflt a rest

/-- List `v` at address `a`, in rising order. -/
def Memory.put (a : Nat) (v : Byte) : Memory → Memory
  | [] => [(a, v)]
  | (k, w) :: rest =>
    if a < k then (a, v) :: (k, w) :: rest
    else if k = a then (a, v) :: rest
    else (k, w) :: Memory.put a v rest

/-- Drop every entry of address `a`. -/
def Memory.drop (a : Nat) : Memory → Memory
  | [] => []
  | (k, w) :: rest => if k = a then Memory.drop a rest else (k, w) :: Memory.drop a rest

/-- Addresses strictly rising. -/
abbrev Memory.rising (m : Memory) : Prop := m.Pairwise fun p q => p.1 < q.1

/-- The canonical form of the display RAM: addresses strictly rising, each one of its 504. An unlisted byte is a free value, so
no entry can be compared with it (log 16). -/
abbrev Memory.ramWf (m : Memory) : Prop := m.rising ∧ ∀ p ∈ m, p.1 < Config.fbBytes

/-- The canonical form of the framebuffer: addresses strictly rising, each one of its 504, and no entry 0x00, which is what an
unlisted address reads as (R50). -/
abbrev Memory.wf (m : Memory) : Prop := m.rising ∧ ∀ p ∈ m, p.1 < Config.fbBytes ∧ p.2 ≠ 0#8

/-- The address of a bank's column, in the framebuffer and in the display RAM (R50, R56, R200). -/
def cellAddr (bank col : Nat) : Nat := bank * Config.cols + col

/-- `fb[a]` (R9, R50): an unlisted byte is 0x00. -/
def fbRead (m : Memory) (a : Nat) : Byte := Memory.read 0#8 a m

/-- `fb[a] <- v` (R9). Writing 0x00 drops the entry. -/
def fbWrite (m : Memory) (a : Nat) (v : Byte) : Memory :=
  if v = 0#8 then Memory.drop a m else Memory.put a v m

/-- The display RAM byte at an address: the byte written, or else the draw it has held since it was last unspecified (R201). -/
def Ctl.ramRead (c : Ctl) (a : Nat) : Byte := Memory.read (Config.freeRam c.ramEpoch a) a c.ram

/-- `DRAM[b][c]` (R200). -/
def Ctl.dram (c : Ctl) (bank col : Nat) : Byte := c.ramRead (cellAddr bank col)

/-! ## The response port -/

/-- `respond(status, value)` (R9, R29, R240). -/
def State.respond (status : Status) (value : Bool) (s : State) : State :=
  { s with responses := s.responses ++ [{ status := status, value := value }] }

/-! ## Faults -/

/-- `raise F(word)` (R9, R241): `FAULT <- (F, word)` and nothing else. -/
def State.raise (reason : FaultReason) (word : Word) (s : State) : State :=
  { s with faultReg := some { reason := reason, word := word } }

/-- The phase lines of the admission check (R242), in their order: the fault a request meets in a phase, if any. -/
def admission (isInit : Bool) : Phase → Option FaultReason
  | .failed => some .useAfterFail
  | .uninit => if isInit then none else some .notInitialized
  | .ready => if isInit then some .reinit else none

/-- Is it INIT? -/
def isInit : Instr → Bool
  | .init _ _ => true
  | .setPixel _ _ _ => false
  | .clear => false
  | .readPixel _ _ => false
  | .flush => false
  | .nop => false
  | .functionSet _ _ _ => false
  | .displayControl _ _ => false
  | .setY _ => false
  | .setX _ => false
  | .tempControl _ => false
  | .setBias _ => false
  | .setVop _ => false
  | .data _ => false

/-- The admission check of a decoded request, then the request itself (R242): a halted block takes no step (R28); a phase that
does not let the request run raises the fault with the request's word; otherwise the request runs. -/
def admitRequest (i : Instr) (s : State) (run : State → State) : Host.Outcome State Fault Refusal :=
  match s.faultReg with
  | some r => .fault (.halted r)
  | none =>
    match admission (isInit i) s.phase with
    | some reason => .next (s.raise reason (requestWord i))
    | none => .next (run s)

/-! ## The controller's unspecified states -/

/-- Every field of R200 becomes an unspecified value (R104, R201). The refusal mark stays (R230). -/
def Ctl.unspecified (c : Ctl) : Ctl := Ctl.drawn c.draws c.refusal

/-- A byte the model gives no meaning (R230): the refusal mark is set. What the controller then holds the spec does not say, so
every field is a free value. DESIGN CHOICE (log 9). -/
def Ctl.refuse (c : Ctl) : Ctl := Ctl.drawn c.draws true

/-! ## Block reset -/

/-- Block reset of a running machine (R270, R271, R274): every register and the framebuffer as after reset; the controller
unspecified, and not pulsed. What the host and the transport still have to present stays. DESIGN CHOICE (log 20). -/
def State.blockReset (s : State) : State :=
  { State.reset with
    ctl := Ctl.drawn s.ctl.draws false
    requests := s.requests
    answers := s.answers
    transportDraws := s.transportDraws }

end Sys2Proof.Machine
end

