-- ==== Sys2Proof/Machine/Operands.lean ====
section
/-! DEFINITION. The operand forms: pixel coordinates and their storage (R51, R140), the bits of a bank byte (R53), the bytes
the block emits (R81). -/

namespace Sys2Proof.Machine

/-! ## Pixels -/

/-- Where an in-bounds pixel is stored: its bank, its column and its bit (R51, R140). -/
structure Pixel where
  bank : Fin 6
  col  : Fin 84
  bit  : Fin 8
deriving DecidableEq, Repr

/-- `inb(x, y)` (R140). -/
abbrev inb (x y : Int) : Prop := (0 ≤ x ∧ x ≤ 83) ∧ (0 ≤ y ∧ y ≤ 47)

/-- The pixel an in-bounds pair names: bank y / 8, column x, bit y mod 8 (R51, R140); `none` out of bounds. -/
def locate (x y : Int) : Option Pixel :=
  if h : inb x y then
    some { bank := ⟨y.toNat / 8, by omega⟩, col := ⟨x.toNat, by omega⟩, bit := ⟨y.toNat % 8, by omega⟩ }
  else none

/-- `addr(x, y)` (R140). -/
def Pixel.addr (p : Pixel) : Nat := cellAddr p.bank.val p.col.val

/-- `on ? (old | (1 << i)) : (old & ~(1 << i))` (R141). -/
def putBit (old : Byte) (i : Fin 8) (on : Bool) : Byte :=
  if on then old ||| (1#8 <<< i.val) else old &&& ~~~(1#8 <<< i.val)

/-- `(v >> i) & 1` (R160). -/
def getBit (v : Byte) (i : Fin 8) : Bool := v.getLsbD i.val

/-! ## The bytes the block emits (R81) -/

/-- `CMD_FSET_EXT`: FUNCTION_SET PD=0, V=0, H=1. -/
def cmdFsetExt : Byte := 0x21#8

/-- `CMD_BIAS`: SET_BIAS `BIAS`. -/
def cmdBias : Byte := 0x10#8 ||| Config.bias.setWidth 8

/-- `CMD_VOP(c)`: SET_VOP c. -/
def cmdVop (c : BitVec 7) : Byte := 0x80#8 ||| c.setWidth 8

/-- `CMD_FSET_BASIC`: FUNCTION_SET PD=0, V=0, H=0. -/
def cmdFsetBasic : Byte := 0x20#8

/-- `CMD_DCTL(inv)`: DISPLAY_CONTROL D=1, E=inv. -/
def cmdDctl (inv : Bool) : Byte := 0x0C#8 ||| (BitVec.ofBool inv).setWidth 8

/-- `CMD_SETX(c)`: SET_X c. -/
def cmdSetX (c : Nat) : Byte := 0x80#8 ||| BitVec.ofNat 8 c

/-- `CMD_SETY(b)`: SET_Y b. -/
def cmdSetY (b : Nat) : Byte := 0x40#8 ||| BitVec.ofNat 8 b

end Sys2Proof.Machine
end

