-- ==== Sys2Proof/Machine/Flags.lean ====
section
/-! DEFINITION. The block's flags (R31): `D_EMPTY` with the dirty bounds (R26). -/

namespace Sys2Proof.Machine

/-- `min` on register values (R8). -/
def least {n : Nat} (a b : Fin n) : Fin n := if a.val ≤ b.val then a else b

/-- `max` on register values (R8). -/
def greatest {n : Nat} (a b : Fin n) : Fin n := if a.val ≤ b.val then b else a

/-- Extend the dirty region to include one (bank, column) (R141). -/
def State.extendDirty (p : Pixel) (s : State) : State :=
  if s.dEmpty then
    { s with dBmin := p.bank, dBmax := p.bank, dCmin := p.col, dCmax := p.col, dEmpty := false }
  else
    { s with
      dBmin := least s.dBmin p.bank, dBmax := greatest s.dBmax p.bank
      dCmin := least s.dCmin p.col, dCmax := greatest s.dCmax p.col }

/-- Mark the whole framebuffer dirty (R150). -/
def State.allDirty (s : State) : State :=
  { s with dEmpty := false, dBmin := 0, dBmax := 5, dCmin := 0, dCmax := 83 }

/-- `D_EMPTY <- 1`; the bounds are not written (R171). -/
def State.clearDirty (s : State) : State := { s with dEmpty := true }

end Sys2Proof.Machine
end

