-- ==== Sys2Proof/Machine/Controller.lean ====
section
/-! DEFINITION. The target controller's commands and data bytes (44_controller_commands.md).

Each command is a function of the controller alone. A command byte means what the mode bit makes of it, so each function
checks `H`: received in the other mode, the byte is what R80 and R91 say it is there (log 13). -/

namespace Sys2Proof.Machine

/-- NOP (R216): no state changes. -/
def Ctl.nop (c : Ctl) : Ctl := c

/-- FUNCTION_SET (R210): the power-down and vertical-addressing forms are refused (R230). -/
def Ctl.functionSet (pd v h : Bool) (c : Ctl) : Ctl :=
  if pd || v then c.refuse else { c with pd := false, v := false, h := h }

/-- The DISPLAY_CONTROL pattern in extended mode (R224): `BS`, `VOP`, `D` and `E` become draws (log 8). -/
def Ctl.corrupt (c : Ctl) : Ctl :=
  { c with
    bs := Config.freeBs c.draws, vop := Config.freeVop c.draws
    d := Config.freeD c.draws, e := Config.freeE c.draws
    draws := c.draws + 1 }

/-- DISPLAY_CONTROL: R213 in basic mode, R224 in extended mode. -/
def Ctl.displayControl (d e : Bool) (c : Ctl) : Ctl :=
  if c.h then c.corrupt else { c with d := d, e := e }

/-- SET_Y (R214): 0..5; 6 and 7 are refused. In extended mode the byte is reserved (R91, R230). -/
def Ctl.setY (y : BitVec 3) (c : Ctl) : Ctl :=
  if c.h then c.refuse
  else if hy : y.toNat < 6 then { c with y := ⟨y.toNat, hy⟩ } else c.refuse

/-- `VOP <- b[6:0]` (R212). -/
def Ctl.takeVop (vop : BitVec 7) (c : Ctl) : Ctl := { c with vop := vop }

/-- `X <- b[6:0]` for 0..83; 84..127 are refused (R215). -/
def Ctl.takeX (x : BitVec 7) (c : Ctl) : Ctl :=
  if hx : x.toNat < 84 then { c with x := ⟨x.toNat, hx⟩ } else c.refuse

/-- SET_X (R215). With `H = 1` the same byte is SET_VOP. -/
def Ctl.setX (x : BitVec 7) (c : Ctl) : Ctl :=
  if c.h then c.takeVop x else c.takeX x

/-- SET_VOP (R212). In basic mode the same byte is SET_X. -/
def Ctl.setVop (vop : BitVec 7) (c : Ctl) : Ctl :=
  if c.h then c.takeVop vop else c.takeX vop

/-- TEMP_CONTROL (R217). In basic mode the byte is reserved (R91, R230). -/
def Ctl.tempControl (tc : BitVec 2) (c : Ctl) : Ctl :=
  if c.h then { c with tc := tc } else c.refuse

/-- SET_BIAS (R211). In basic mode the byte is reserved (R230). -/
def Ctl.setBias (bs : BitVec 3) (c : Ctl) : Ctl :=
  if c.h then { c with bs := bs } else c.refuse

/-- The address the next data byte is written to (R220). -/
def Ctl.dataAddr (c : Ctl) : Nat := cellAddr c.y.val c.x.val

/-- The counters after a data byte: R221 below column 83, R222 at column 83 (log 6). -/
def Ctl.advance (c : Ctl) : Ctl :=
  if h : c.x.val < 83 then { c with x := ⟨c.x.val + 1, by omega⟩ }
  else { c with x := 0, y := Config.wrapBank c.draws, draws := c.draws + 1 }

/-- A data byte (R220): `DRAM[Y][X] <- v`, whatever `D`, `E` and `H` are, then the counters advance. -/
def Ctl.data (v : Byte) (c : Ctl) : Ctl :=
  { c with ram := Memory.put c.dataAddr v c.ram }.advance

/-- The controller's part in one decoded byte (R205). A request is no byte, and decoding a byte never gives one. -/
def Ctl.run (c : Ctl) : Instr → Ctl
  | .init _ _ => c
  | .setPixel _ _ _ => c
  | .clear => c
  | .readPixel _ _ => c
  | .flush => c
  | .nop => c.nop
  | .functionSet pd v h => c.functionSet pd v h
  | .displayControl d e => c.displayControl d e
  | .setY y => c.setY y
  | .setX x => c.setX x
  | .tempControl tc => c.tempControl tc
  | .setBias bs => c.setBias bs
  | .setVop vop => c.setVop vop
  | .data v => c.data v

/-- The code of a byte at a DC level (R92, R101): low is command, high is data. -/
def byteCode (dc : Level) (b : Byte) : Code :=
  match dc with
  | .low => .command b
  | .high => .data b

/-- One byte delivered at a DC level (R205): decoded against the current `H`, then run; a reserved byte is refused (R230). -/
def Ctl.receive (dc : Level) (c : Ctl) (b : Byte) : Ctl :=
  match decode c.h (byteCode dc b) with
  | .instr i => c.run i
  | .illegalRequest _ => c
  | .reservedByte _ => c.refuse

/-- The bytes of a transaction, in delivery order (R101, R103, R205). -/
def Ctl.deliver (dc : Level) (bytes : List Byte) (c : Ctl) : Ctl := bytes.foldl (Ctl.receive dc) c

/-! ## The meanings -/

/-- NOP (R216). -/
def execNop (s : State) : Host.Outcome State Fault Refusal :=
  .next { s with ctl := s.ctl.nop }

/-- FUNCTION_SET (R210). -/
def execFunctionSet (pd v h : Bool) (s : State) : Host.Outcome State Fault Refusal :=
  .next { s with ctl := s.ctl.functionSet pd v h }

/-- DISPLAY_CONTROL (R213, R224). -/
def execDisplayControl (d e : Bool) (s : State) : Host.Outcome State Fault Refusal :=
  .next { s with ctl := s.ctl.displayControl d e }

/-- SET_Y (R214). -/
def execSetY (y : BitVec 3) (s : State) : Host.Outcome State Fault Refusal :=
  .next { s with ctl := s.ctl.setY y }

/-- SET_X (R215). -/
def execSetX (x : BitVec 7) (s : State) : Host.Outcome State Fault Refusal :=
  .next { s with ctl := s.ctl.setX x }

/-- TEMP_CONTROL (R217). -/
def execTempControl (tc : BitVec 2) (s : State) : Host.Outcome State Fault Refusal :=
  .next { s with ctl := s.ctl.tempControl tc }

/-- SET_BIAS (R211). -/
def execSetBias (bs : BitVec 3) (s : State) : Host.Outcome State Fault Refusal :=
  .next { s with ctl := s.ctl.setBias bs }

/-- SET_VOP (R212). -/
def execSetVop (vop : BitVec 7) (s : State) : Host.Outcome State Fault Refusal :=
  .next { s with ctl := s.ctl.setVop vop }

/-- DATA (R220 to R222). -/
def execData (v : Byte) (s : State) : Host.Outcome State Fault Refusal :=
  .next { s with ctl := s.ctl.data v }

end Sys2Proof.Machine
end

