-- ==== Sys2Proof/Machine/Bus.lean ====
section
/-! DEFINITION. The bus primitives `Txn` and `PinSet` (40_busframe.md) and the walk over a request's bus events. -/

namespace Sys2Proof.Machine

/-- The level `DC` takes for a transaction (R100, R101). -/
def BusMode.level : BusMode → Level
  | .command => .low
  | .data => .high

/-- The transport's verdict in an answer. -/
def verdict : Answer → TransportResult
  | .ok => .ok
  | .err _ => .err

/-- How many of `len` bytes an answer says reached the controller (R101): all on Ok, a prefix on Err. -/
def delivered (len : Nat) : Answer → Nat
  | .ok => len
  | .err k => min k len

/-- The transport's answer to the next bus event (R10, R29): the next one supplied, or a free value (log 4). -/
def nextAnswer (s : State) : Answer :=
  match s.answers with
  | a :: _ => a
  | [] => Config.freeAnswer s.transportDraws

/-- The answer is used up. -/
def State.takeAnswer (s : State) : State :=
  match s.answers with
  | _ :: rest => { s with answers := rest }
  | [] => { s with transportDraws := s.transportDraws + 1 }

/-- `transmit(bytes, holdSelectLow)` (R29, R101, R105): the bytes that arrive reach the controller at the level on `DC`.
`holdSelectLow` has no effect the block observes. -/
def transmit (bytes : List Byte) (_holdSelectLow : Bool) (s : State) : TransportResult × State :=
  let a := nextAnswer s
  (verdict a,
    { s.takeAnswer with ctl := s.ctl.deliver s.dc (bytes.take (delivered bytes.length a)) })

/-- `Txn(dc, bytes)` (R101). -/
def txn (dc : BusMode) (bytes : List Byte) (s : State) : TransportResult × State :=
  let t := transmit bytes true { s with cs := .low, dc := BusMode.level dc }
  (t.1, { t.2 with cs := .high, trace := t.2.trace ++ [.txn dc bytes t.1] })

/-- `PinSet(RST, level)` (R104). On Ok the line takes the level, and the release that ends a pulse leaves the controller
unspecified (R201, log 17). On Err the line's level and every field of the controller are free values (log 5). -/
def pinSet (level : Level) (s : State) : TransportResult × State :=
  let t := s.takeAnswer
  match nextAnswer s with
  | .ok =>
    (.ok, { t with
      rst := level
      ctl := if t.rst = .low ∧ level = .high then t.ctl.unspecified else t.ctl
      trace := t.trace ++ [.rst level .ok] })
  | .err _ =>
    (.err, { t with
      rst := Config.freeRst t.transportDraws
      ctl := t.ctl.unspecified
      transportDraws := t.transportDraws + 1
      trace := t.trace ++ [.rst level .err] })

/-- One bus event a request asks for. -/
inductive BusOp where
  | pin (level : Level)
  | txn (dc : BusMode) (bytes : List Byte)
deriving DecidableEq, Repr

/-- The event an operation leaves in the trace (R106). -/
def BusOp.event (r : TransportResult) : BusOp → BusEvent
  | .pin level => .rst level r
  | .txn dc bytes => .txn dc bytes r

/-- Perform one bus operation. -/
def runOp (op : BusOp) (s : State) : TransportResult × State :=
  match op with
  | .pin level => pinSet level s
  | .txn dc bytes => txn dc bytes s

/-- Perform a request's bus operations in order, each answered before the next (R58, R59), up to the first Err (R243, R245). -/
def runOps : List BusOp → State → TransportResult × State
  | [], s => (.ok, s)
  | op :: rest, s =>
    match runOp op s with
    | (.ok, t) => runOps rest t
    | (.err, t) => (.err, t)

end Sys2Proof.Machine
end

