-- ==== Sys2Proof/Machine/Flush.lean ====
section
/-! DEFINITION. FLUSH (43_flush.md). The walker's cursors (R170) are the elements of the two lists it walks. -/

namespace Sys2Proof.Machine

/-- `lo .. hi`, ascending; empty when `hi < lo`. -/
def ascending (lo hi : Nat) : List Nat := List.range' lo (hi + 1 - lo)

/-- The bytes of a bank's dirty columns, ascending (R53, R171). -/
def bankBytes (s : State) (bank : Nat) : List Byte :=
  (ascending s.dCmin.val s.dCmax.val).map fun c => fbRead s.fb (cellAddr bank c)

/-- A bank's two transactions: its address pair, column first, then its bytes (R171, R173). -/
def bankOps (s : State) (bank : Nat) : List BusOp :=
  [.txn .command [cmdSetX s.dCmin.val, cmdSetY bank], .txn .data (bankBytes s bank)]

/-- The bus operations of a FLUSH, banks ascending (R171). `fb` and the dirty registers do not change while they run (R170). -/
def flushOps (s : State) : List BusOp :=
  (ascending s.dBmin.val s.dBmax.val).flatMap (bankOps s)

/-- The end of FLUSH (R171, R176): the region is empty only when every transaction answered Ok. -/
def flushEnd : TransportResult × State → State
  | (.ok, s) => s.clearDirty.respond .ok false
  | (.err, s) => s.respond .transportError false

/-- FLUSH once admitted (R171): an empty region issues nothing. -/
def runFlush (s : State) : State :=
  if s.dEmpty then s.respond .ok false else flushEnd (runOps (flushOps s) s)

/-- FLUSH (R171). -/
def execFlush (s : State) : Host.Outcome State Fault Refusal :=
  admitRequest .flush s runFlush

end Sys2Proof.Machine
end

