-- ==== Sys2Proof/Machine/Framebuffer.lean ====
section
/-! DEFINITION. SET_PIXEL, CLEAR and READ_PIXEL (42_framebuffer.md). -/

namespace Sys2Proof.Machine

/-- The one-bit read-modify-write of a pixel's byte (R55, R141). -/
def State.putPixel (p : Pixel) (on : Bool) (s : State) : State :=
  { s with fb := fbWrite s.fb p.addr (putBit (fbRead s.fb p.addr) p.bit on) }

/-- SET_PIXEL once admitted (R141): out of bounds is clipped. -/
def runSetPixel (x y : Int) (on : Bool) (s : State) : State :=
  match locate x y with
  | none => s.respond .ok false
  | some p => ((s.putPixel p on).extendDirty p).respond .ok false

/-- SET_PIXEL (R141). -/
def execSetPixel (x y : Int) (on : Bool) (s : State) : Host.Outcome State Fault Refusal :=
  admitRequest (.setPixel x y on) s (runSetPixel x y on)

/-- CLEAR once admitted (R150): every byte 0x00, which is the empty list. -/
def runClear (s : State) : State :=
  ({ s with fb := [] }.allDirty).respond .ok false

/-- CLEAR (R150). -/
def execClear (s : State) : Host.Outcome State Fault Refusal :=
  admitRequest .clear s runClear

/-- The value READ_PIXEL responds (R160): 0 out of bounds. -/
def pixelValue (m : Memory) (x y : Int) : Bool :=
  match locate x y with
  | none => false
  | some p => getBit (fbRead m p.addr) p.bit

/-- READ_PIXEL once admitted (R160). -/
def runReadPixel (x y : Int) (s : State) : State :=
  s.respond .ok (pixelValue s.fb x y)

/-- READ_PIXEL (R160). -/
def execReadPixel (x y : Int) (s : State) : Host.Outcome State Fault Refusal :=
  admitRequest (.readPixel x y) s (runReadPixel x y)

end Sys2Proof.Machine
end

