-- ==== Sys2Proof/Machine/Init.lean ====
section
/-! DEFINITION. INIT (41_controller_init.md). -/

namespace Sys2Proof.Machine

/-- The six steps of INIT in their order (R124): the pulse, then five one-byte command transactions. -/
def initOps (inv : Bool) (contrast : BitVec 7) : List BusOp :=
  [ .pin .low,
    .pin .high,
    .txn .command [cmdFsetExt],
    .txn .command [cmdBias],
    .txn .command [cmdVop contrast],
    .txn .command [cmdFsetBasic],
    .txn .command [cmdDctl inv] ]

/-- The end of INIT: `READY` and OK, or `FAILED` and TRANSPORT_ERROR (R121). -/
def initEnd : TransportResult × State → State
  | (.ok, s) => { s with phase := .ready }.respond .ok false
  | (.err, s) => { s with phase := .failed }.respond .transportError false

/-- INIT once admitted (R121): the latches are written first and the steps read them. -/
def runInit (inv : Bool) (contrast : BitVec 7) (s : State) : State :=
  let t := { s with cfgInv := inv, cfgContrast := contrast }
  initEnd (runOps (initOps t.cfgInv t.cfgContrast) t)

/-- INIT (R121). -/
def execInit (inv : Bool) (contrast : BitVec 7) (s : State) : Host.Outcome State Fault Refusal :=
  admitRequest (.init inv contrast) s (runInit inv contrast)

end Sys2Proof.Machine
end

