-- ==== Sys2Proof/Machine/Dispatch.lean ====
section
/-! DEFINITION. One arm per instruction. -/

namespace Sys2Proof.Machine

def exec (i : Instr) (s : State) : Host.Outcome State Fault Refusal :=
  match i with
  | .init inv contrast => Sys2Proof.Machine.execInit inv contrast s
  | .setPixel x y on => Sys2Proof.Machine.execSetPixel x y on s
  | .clear => Sys2Proof.Machine.execClear s
  | .readPixel x y => Sys2Proof.Machine.execReadPixel x y s
  | .flush => Sys2Proof.Machine.execFlush s
  | .nop => Sys2Proof.Machine.execNop s
  | .functionSet pd v h => Sys2Proof.Machine.execFunctionSet pd v h s
  | .displayControl d e => Sys2Proof.Machine.execDisplayControl d e s
  | .setY y => Sys2Proof.Machine.execSetY y s
  | .setX x => Sys2Proof.Machine.execSetX x s
  | .tempControl tc => Sys2Proof.Machine.execTempControl tc s
  | .setBias bs => Sys2Proof.Machine.execSetBias bs s
  | .setVop vop => Sys2Proof.Machine.execSetVop vop s
  | .data v => Sys2Proof.Machine.execData v s

end Sys2Proof.Machine
end

