-- ==== Sys2Proof/Machine/Fetch.lean ====
section
/-! DEFINITION. Which instruction comes next: a bench byte on the controller's serial input, or else the next request word. -/

namespace Sys2Proof.Machine

/-- What the next step has to do, with the state once the input is taken. -/
inductive Fetched where
  /-- the run carries the refusal mark (R230) -/
  | marked
  /-- a byte arrived with `CS` deasserted: the controller takes no notice (R202) -/
  | ignored (s : State)
  /-- an instruction to run -/
  | run (i : Instr) (s : State)
  /-- a reserved command byte (R91) -/
  | reserved (s : State)
  /-- the block is halted (R28) -/
  | halted (r : FaultRecord)
  /-- no request word is presented: the block waits (R270) -/
  | waiting
  /-- an illegal request word (R90) -/
  | illegal (w : Word) (s : State)
deriving DecidableEq, Repr

/-- A decoded code as something to do. -/
def Fetched.ofDecoded (s : State) : Decoded → Fetched
  | .instr i => .run i s
  | .illegalRequest w => .illegal w s
  | .reservedByte _ => .reserved s

/-- The next thing to do. A byte on the controller's serial input comes first; it is the controller's, and a halted block does
not stop it (log 12). Then the sequencer: the lines of the admission check before decoding (R242), and the next word. -/
def fetch (s : State) : Fetched :=
  if s.ctl.refusal then .marked
  else
    match s.busIn with
    | b :: rest =>
      match s.cs with
      | .high => .ignored { s with busIn := rest }
      | .low => Fetched.ofDecoded { s with busIn := rest } (decode s.ctl.h (byteCode s.dc b))
    | [] =>
      match s.faultReg with
      | some r => .halted r
      | none =>
        match s.requests with
        | [] => .waiting
        | w :: rest => Fetched.ofDecoded { s with requests := rest } (decode s.ctl.h (.request w))

/-- A reserved command byte reaches the controller (R205, R230). -/
def refuseByte (s : State) : State := { s with ctl := s.ctl.refuse }

/-- Put a table row's bits where the next instruction is fetched (log 11, log 12). 32 bits: the next request word, with no bench
byte before it. 8 bits: a bench byte inside a command transaction (CS low, DC low), in the mode the byte is read in. -/
def placeWord (s : State) (nbits w : Nat) : State :=
  if nbits ≤ 8 then
    { s with
      busIn := BitVec.ofNat 8 w :: s.busIn, cs := .low, dc := .low
      ctl := { s.ctl with h := tableMode (BitVec.ofNat 8 w) } }
  else
    { s with busIn := [], requests := BitVec.ofNat 32 w :: s.requests }

end Sys2Proof.Machine
end

