-- ==== Sys2Proof/Machine/Step.lean ====
section
/-! DEFINITION. One step of the machine: one request of the sequencer (R4), or one bench byte of the controller. -/

namespace Sys2Proof.Machine

/-- One step (R4, R11, R242). -/
def step (s : State) : Host.Outcome State Fault Refusal :=
  match fetch s with
  | .marked => .refused .markedRun
  | .ignored t => .next t
  | .run i t => exec i t
  | .reserved t => .next (refuseByte t)
  | .halted r => .fault (.halted r)
  | .waiting => .next s
  | .illegal w t => .next (t.raise .illegalRequest w)

/-- `s` with a table row's bits where `step` fetches its next instruction. -/
def State.withFetchWord (s : State) (nbits w : Nat) : State := placeWord s nbits w

end Sys2Proof.Machine
end

