-- ==== Sys2Proof/Machine/Glass.lean ====
section
/-! DEFINITION. The image on the glass (R226). -/

namespace Sys2Proof.Machine

/-- Is the dot of bank `b`, column `col`, bit `i` on? By display mode (R226): blank, normal, all on, inverted. -/
def Ctl.glassOn (c : Ctl) (b : Fin 6) (col : Fin 84) (i : Fin 8) : Bool :=
  match c.d, c.e with
  | false, false => false
  | true, false => getBit (c.dram b.val col.val) i
  | false, true => true
  | true, true => !getBit (c.dram b.val col.val) i

/-- Is the dot dark? `PIXEL_ON_DARK` is OPEN (R226). -/
def Ctl.glassDark (c : Ctl) (b : Fin 6) (col : Fin 84) (i : Fin 8) : Bool :=
  c.glassOn b col i == Config.pixelOnDark

end Sys2Proof.Machine
end

