-- ==== Sys2Proof/Machine/HostAsm.lean ====
section
/-! DEFINITION. The host-side request syntax (R93) and pseudo-requests (R94): the block sees only the expansion. -/

namespace Sys2Proof.Machine

/-- One line of a program (R93), or a pseudo-request (R94). -/
inductive Asm where
  /-- `INIT contrast=<c>, color=normal|inverted` -/
  | init (contrast : BitVec 7) (inverted : Bool)
  /-- `SETPX <x>, <y>, on|off` -/
  | setpx (x y : Int) (on : Bool)
  /-- `CLEAR` -/
  | clear
  /-- `RDPX <x>, <y>` -/
  | rdpx (x y : Int)
  /-- `FLUSH` -/
  | flush
  /-- `PIXON x, y` -/
  | pixon (x y : Int)
  /-- `PIXOFF x, y` -/
  | pixoff (x y : Int)
  /-- `BLANK` -/
  | blank
  /-- `FILLRECT x0, y0, x1, y1, on|off` -/
  | fillrect (x0 y0 x1 y1 : Int) (on : Bool)
  /-- `RECT x0, y0, x1, y1, on|off` -/
  | rect (x0 y0 x1 y1 : Int) (on : Bool)
deriving DecidableEq, Repr

/-- The integers `lo .. hi`, ascending. -/
def ints (lo hi : Int) : List Int := (List.range (hi + 1 - lo).toNat).map fun (k : Nat) => lo + k

/-- The points of FILLRECT's rectangle, in ascending y then x order (R94). R94 gives FILLRECT for x0 ≤ x1 and y0 ≤ y1 alone; with
x0 > x1 or y0 > y1 its loops run over nothing here, so there is no point. DESIGN CHOICE (log 26). -/
def rectPoints (x0 y0 x1 y1 : Int) : List (Int × Int) :=
  (ints y0 y1).flatMap fun y => (ints x0 x1).map fun x => (x, y)

/-- Is a point one that RECT sets (R94)? x ∈ {x0, x1} and y0 ≤ y ≤ y1, or y ∈ {y0, y1} and x0 ≤ x ≤ x1, in whichever order the
corners are given. -/
abbrev onEdge (x0 y0 x1 y1 x y : Int) : Prop :=
  ((x = x0 ∨ x = x1) ∧ (y0 ≤ y ∧ y ≤ y1)) ∨ ((y = y0 ∨ y = y1) ∧ (x0 ≤ x ∧ x ≤ x1))

/-- The points RECT sets, in ascending y then x order (R94): those of the smallest rectangle around both corners. -/
def edgePoints (x0 y0 x1 y1 : Int) : List (Int × Int) :=
  (rectPoints (min x0 x1) (min y0 y1) (max x0 x1) (max y0 y1)).filter fun p => onEdge x0 y0 x1 y1 p.1 p.2

/-- The requests a line stands for (R93, R94). -/
def Asm.expand : Asm → List Instr
  | .init contrast inverted => [.init inverted contrast]
  | .setpx x y on => [.setPixel x y on]
  | .clear => [.clear]
  | .rdpx x y => [.readPixel x y]
  | .flush => [.flush]
  | .pixon x y => [.setPixel x y true]
  | .pixoff x y => [.setPixel x y false]
  | .blank => [.clear, .flush]
  | .fillrect x0 y0 x1 y1 on => (rectPoints x0 y0 x1 y1).map fun p => .setPixel p.1 p.2 on
  | .rect x0 y0 x1 y1 on => (edgePoints x0 y0 x1 y1).map fun p => .setPixel p.1 p.2 on

/-- The request words of a program, in order. -/
def assemble (program : List Asm) : List Word :=
  (program.flatMap Asm.expand).map requestWord

end Sys2Proof.Machine
end

