-- ==== Sys2Proof/Safety.lean ====
section
/-! DEFINITION. What a safe state is, in the terms the statements use. -/

namespace Sys2Proof.Machine

/-- The block is neither halted nor in a phase that turns drawing and flushing away (R242). -/
abbrev Ready (s : State) : Prop := s.faultReg = none ∧ s.phase = .ready

/-- The known addressable state of the controller (R225). -/
abbrev Known (c : Ctl) (inv : Bool) (contrast : BitVec 7) : Prop :=
  c.h = false ∧ c.pd = false ∧ c.v = false ∧ c.bs = Config.bias ∧ c.vop = contrast ∧ c.d = true ∧ c.e = inv

/-- The order of the dirty bounds (R27); their ranges are in their types. -/
abbrev DirtyOrdered (s : State) : Prop :=
  s.dEmpty = false → s.dBmin.val ≤ s.dBmax.val ∧ s.dCmin.val ≤ s.dCmax.val

/-- A (bank, column) inside the rectangle of the dirty bounds (R27). -/
abbrev InRegion (s : State) (bank col : Nat) : Prop :=
  (s.dBmin.val ≤ bank ∧ bank ≤ s.dBmax.val) ∧ (s.dCmin.val ≤ col ∧ col ≤ s.dCmax.val)

/-- What every step of the block keeps. -/
structure BlockInv (s : State) : Prop where
  /-- the framebuffer's canonical form (R50) -/
  fbWf : s.fb.wf
  /-- the display RAM's canonical form (R200) -/
  ramWf : s.ctl.ram.ramWf
  /-- the dirty bounds are ordered (R27) -/
  dirty : DirtyOrdered s
  /-- before an INIT completes nothing is drawn (R125) -/
  blank : s.phase ≠ .ready → s.fb = [] ∧ s.dEmpty = true
  /-- after an INIT completed the controller is in the known addressable state (R126, R177) -/
  known : s.phase = .ready → Known s.ctl s.cfgInv s.cfgContrast
  /-- outside INIT the reset line is released, unless a pin operation failed (R30, R104) -/
  released : s.phase ≠ .failed → s.rst = .high
  /-- outside a transaction chip-select is deasserted (R30) -/
  deselected : s.cs = .high
  /-- no refused byte was received (R231) -/
  unmarked : s.ctl.refusal = false
  /-- nothing but the block drives the bus (R252) -/
  alone : s.busIn = []

/-- The requests of a list, one after the other, up to the first stop. -/
def execAll : List Instr → State → Host.Outcome State Fault Refusal
  | [], s => .next s
  | i :: rest, s =>
    match exec i s with
    | .next t => execAll rest t
    | .fault r => .fault r
    | .refused r => .refused r

/-- The state a step reached, if it reached one. -/
def reached : Host.Outcome State Fault Refusal → Option State
  | .next s => some s
  | .fault _ => none
  | .refused _ => none

/-- The last response on the response port (R29). -/
def lastResponse (s : State) : Option Response := s.responses.getLast?

/-- The seven bus events of an INIT (R124), each with the verdict `r`. -/
def initEvents (inv : Bool) (contrast : BitVec 7) (r : TransportResult) : List BusEvent :=
  [ .rst .low r,
    .rst .high r,
    .txn .command [0x21#8] r,
    .txn .command [0x14#8] r,
    .txn .command [0x80#8 ||| contrast.setWidth 8] r,
    .txn .command [0x20#8] r,
    .txn .command [if inv then 0x0D#8 else 0x0C#8] r ]

/-- How many banks the dirty bounds span (R172). -/
def dirtyBanks (s : State) : Nat := s.dBmax.val - s.dBmin.val + 1

/-- How many columns the dirty bounds span (R172). -/
def dirtyCols (s : State) : Nat := s.dCmax.val - s.dCmin.val + 1

/-- The bytes of the dirty columns of bank `b`, ascending (R171). -/
def dirtyBytes (s : State) (b : Nat) : List Byte :=
  (List.range (dirtyCols s)).map fun j => fbRead s.fb (b * 84 + (s.dCmin.val + j))

/-- The bus events of an accepted FLUSH (R171): for each dirty bank, ascending, its address pair and its bytes. -/
def flushEvents (s : State) : List BusEvent :=
  (List.range (dirtyBanks s)).flatMap fun k =>
    [ .txn .command [0x80#8 ||| BitVec.ofNat 8 s.dCmin.val, 0x40#8 ||| BitVec.ofNat 8 (s.dBmin.val + k)] .ok,
      .txn .data (dirtyBytes s (s.dBmin.val + k)) .ok ]

/-- How many bytes an event carries. -/
def BusEvent.byteCount : BusEvent → Nat
  | .rst _ _ => 0
  | .txn _ bytes _ => bytes.length

/-- Is the event a transaction of this kind? -/
def BusEvent.isTxn (dc : BusMode) : BusEvent → Bool
  | .rst _ _ => false
  | .txn dc' _ _ => dc' == dc

/-- The verdict of an event. -/
def BusEvent.verdict : BusEvent → TransportResult
  | .rst _ r => r
  | .txn _ _ r => r

end Sys2Proof.Machine
end

