-- ==== Sys2Proof/Certificates/Slice0/Obligations.lean ====
section
/-! DEFINITION. The statements for the provers, each with the rule of spec/ it formalises. -/

open Sys2Proof Sys2Proof.Machine

/-! ## Encoding -/

/-- Decoding what the encoder wrote gives the instruction back, with every operand, in every mode that decodes it (R72, R80). -/
def Obligations.DecodeOfEncodeGivesTheInstructionBack : Prop :=
  ∀ (i : Instr) (h : Bool), i.wf = true → i.decodedIn h = true → decode h (encode i) = .instr i

/-- A code has one meaning: what decodes to an instruction is that instruction's own code, and the instruction is well-formed. -/
def Obligations.EncodeOfDecodeGivesTheCodeBack : Prop :=
  ∀ (h : Bool) (c : Code) (i : Instr), decode h c = .instr i → encode i = c ∧ i.wf = true ∧ i.decodedIn h = true

/-- R72: every word decodes to the one request its match and mask select, with its free fields (R73), or is illegal. -/
def Obligations.RequestsDecodeByMatchAndMask : Prop :=
  ∀ w : Word,
    (w &&& 0xFFFFFE80#32 = 0x10000000#32 →
      decodeRequest w = .instr (.init (w.getLsbD 8) (w.extractLsb' 0 7))) ∧
    (w &&& 0xFE000000#32 = 0x20000000#32 →
      decodeRequest w = .instr (.setPixel (w.extractLsb' 0 12).toInt (w.extractLsb' 12 12).toInt (w.getLsbD 24))) ∧
    (w &&& 0xFFFFFFFF#32 = 0x30000000#32 → decodeRequest w = .instr .clear) ∧
    (w &&& 0xFF000000#32 = 0x40000000#32 →
      decodeRequest w = .instr (.readPixel (w.extractLsb' 0 12).toInt (w.extractLsb' 12 12).toInt)) ∧
    (w &&& 0xFFFFFFFF#32 = 0x50000000#32 → decodeRequest w = .instr .flush) ∧
    (w &&& 0xFFFFFE80#32 ≠ 0x10000000#32 → w &&& 0xFE000000#32 ≠ 0x20000000#32 → w &&& 0xFFFFFFFF#32 ≠ 0x30000000#32 →
      w &&& 0xFF000000#32 ≠ 0x40000000#32 → w &&& 0xFFFFFFFF#32 ≠ 0x50000000#32 → decodeRequest w = .illegalRequest w)

/-- R80 and R91: every command byte decodes, by match and mask and the mode bit, to the row of R80, or is reserved. That the
DISPLAY_CONTROL pattern keeps its name in extended mode, where R224 gives its effect, is the model's reading (log 24). -/
def Obligations.CommandsDecodeByMatchMaskAndMode : Prop :=
  ∀ (h : Bool) (b : Byte),
    decodeCommand h b =
      if b &&& 0xFF#8 = 0x00#8 then .instr .nop
      else if b &&& 0xF8#8 = 0x20#8 then .instr (.functionSet (b.getLsbD 2) (b.getLsbD 1) (b.getLsbD 0))
      else if b &&& 0xFA#8 = 0x08#8 then .instr (.displayControl (b.getLsbD 2) (b.getLsbD 0))
      else if h = false ∧ b &&& 0xF8#8 = 0x40#8 then .instr (.setY (b.extractLsb' 0 3))
      else if h = false ∧ b &&& 0x80#8 = 0x80#8 then .instr (.setX (b.extractLsb' 0 7))
      else if h = true ∧ b &&& 0xFC#8 = 0x04#8 then .instr (.tempControl (b.extractLsb' 0 2))
      else if h = true ∧ b &&& 0xF8#8 = 0x10#8 then .instr (.setBias (b.extractLsb' 0 3))
      else if h = true ∧ b &&& 0x80#8 = 0x80#8 then .instr (.setVop (b.extractLsb' 0 7))
      else .reservedByte b

/-- Words and bytes of 95_test_vectors.md decode to what they stand for. -/
def Obligations.WordsOfTheTestVectorsDecode : Prop :=
  decodeRequest 0x10000040#32 = .instr (.init false 64#7) ∧
  decodeRequest 0x2102F053#32 = .instr (.setPixel 83 47 true) ∧
  decodeRequest 0x21FFF000#32 = .instr (.setPixel 0 (-1) true) ∧
  decodeRequest 0x4000500A#32 = .instr (.readPixel 10 5) ∧
  decodeRequest 0x10000200#32 = .illegalRequest 0x10000200#32 ∧
  decodeCommand true 0x14#8 = .instr (.setBias 4#3) ∧
  decodeCommand false 0x14#8 = .reservedByte 0x14#8 ∧
  decodeCommand true 0x8A#8 = .instr (.setVop 10#7) ∧
  decodeCommand false 0x8A#8 = .instr (.setX 10#7) ∧
  decodeCommand false 0x0D#8 = .instr (.displayControl true true)

/-- R93: the word of each line of request syntax, by the formula of the rule's table. -/
def Obligations.RequestSyntaxGivesTheTabledWord : Prop :=
  ∀ (c : BitVec 7) (inv on : Bool) (x y : Int),
    assemble [.init c inv] = [0x10000000#32 ||| ((BitVec.ofBool inv).setWidth 32 <<< 8) ||| c.setWidth 32] ∧
    assemble [.setpx x y on] = [0x20000000#32 ||| ((BitVec.ofBool on).setWidth 32 <<< 24) |||
      ((BitVec.ofInt 32 y &&& 0xFFF#32) <<< 12) ||| (BitVec.ofInt 32 x &&& 0xFFF#32)] ∧
    assemble [.clear] = [0x30000000#32] ∧
    assemble [.rdpx x y] = [0x40000000#32 ||| ((BitVec.ofInt 32 y &&& 0xFFF#32) <<< 12) ||| (BitVec.ofInt 32 x &&& 0xFFF#32)] ∧
    assemble [.flush] = [0x50000000#32]

/-! ## Steps, faults and reset -/

/-- When the next request word encodes a well-formed request, a step is `exec` of that request with the word taken. -/
def Obligations.AStepRunsTheRequestWord : Prop :=
  ∀ (s : State) (i : Instr) (w : Word) (rest : List Word),
    s.ctl.refusal = false → s.busIn = [] → s.faultReg = none → i.wf = true → encode i = .request w → s.requests = w :: rest →
    step s = exec i { s with requests := rest }

/-- When a byte (of the bench input, log 12) reaches the selected controller and encodes, at the level on DC and in the current mode, a command or a data byte,
a step is `exec` of that instruction with the byte taken (R205). -/
def Obligations.AStepRunsTheControllerByte : Prop :=
  ∀ (s : State) (i : Instr) (b : Byte) (rest : List Byte),
    s.ctl.refusal = false → s.busIn = b :: rest → s.cs = .low → i.decodedIn s.ctl.h = true → encode i = byteCode s.dc b →
    step s = exec i { s with busIn := rest }

/-- R202: a byte that arrives (on the bench input of log 12) with chip-select deasserted changes nothing, and a request that makes
no bus event changes nothing in the controller. -/
def Obligations.TheControllerTakesNoByteOutsideATransaction : Prop :=
  (∀ (s : State) (b : Byte) (rest : List Byte),
    s.ctl.refusal = false → s.busIn = b :: rest → s.cs = .high → step s = .next { s with busIn := rest }) ∧
  (∀ (i : Instr) (s t : State), i.isRequest = true → exec i s = .next t → t.trace = s.trace → t.ctl = s.ctl)

/-- R270: with no request word presented the block waits. -/
def Obligations.TheBlockWaitsForARequestWord : Prop :=
  ∀ s : State, s.ctl.refusal = false → s.busIn = [] → s.faultReg = none → s.requests = [] → step s = .next s

/-- R90: a word of a reserved `OP`, or with a 1 where R70 requires 0, raises ILLEGAL_REQUEST and changes no other state. -/
def Obligations.AnIllegalWordRaisesIllegalRequest : Prop :=
  ∀ (s : State) (w : Word) (rest : List Word),
    s.ctl.refusal = false → s.busIn = [] → s.faultReg = none → s.requests = w :: rest →
    ((w.extractLsb' 28 4 = 0#4 ∨ 6 ≤ (w.extractLsb' 28 4).toNat) ∨
      (w.extractLsb' 28 4 = 1#4 ∧ (w.extractLsb' 9 19 ≠ 0#19 ∨ w.getLsbD 7 = true)) ∨
      (w.extractLsb' 28 4 = 2#4 ∧ w.extractLsb' 25 3 ≠ 0#3) ∨
      (w.extractLsb' 28 4 = 3#4 ∧ w.extractLsb' 0 28 ≠ 0#28) ∨
      (w.extractLsb' 28 4 = 4#4 ∧ w.extractLsb' 24 4 ≠ 0#4) ∨
      (w.extractLsb' 28 4 = 5#4 ∧ w.extractLsb' 0 28 ≠ 0#28)) →
    step s = .next { s with requests := rest, faultReg := some ⟨.illegalRequest, w⟩ }

/-- R242: the admission check, line by line, on the word that arrives. -/
def Obligations.AdmissionFollowsItsLinesInOrder : Prop :=
  ∀ (s : State) (w : Word) (rest : List Word),
    s.ctl.refusal = false → s.busIn = [] → s.requests = w :: rest →
    (∀ r, s.faultReg = some r → step s = .fault (.halted r)) ∧
    (s.faultReg = none →
      (decodeRequest w = .illegalRequest w →
        step s = .next { s with requests := rest, faultReg := some ⟨.illegalRequest, w⟩ }) ∧
      (∀ i, decodeRequest w = .instr i →
        (s.phase = .failed → step s = .next { s with requests := rest, faultReg := some ⟨.useAfterFail, w⟩ }) ∧
        (s.phase = .uninit → (∀ inv c, i ≠ .init inv c) →
          step s = .next { s with requests := rest, faultReg := some ⟨.notInitialized, w⟩ }) ∧
        (s.phase = .ready → (∃ inv c, i = .init inv c) →
          step s = .next { s with requests := rest, faultReg := some ⟨.reinit, w⟩ }) ∧
        ((s.phase = .uninit ∧ (∃ inv c, i = .init inv c)) ∨ (s.phase = .ready ∧ ∀ inv c, i ≠ .init inv c) →
          ∃ t, step s = .next t ∧ exec i { s with requests := rest } = .next t ∧ t.faultReg = none)))

/-- R241, R246: a step that raises a fault leaves exactly the state before it (less the request word taken) plus FAULT, which
holds the reason its cause gives and the word; the block then takes no further step. -/
def Obligations.FaultEntryChangesOnlyTheFaultRegister : Prop :=
  ∀ (s t : State) (w : Word) (rest : List Word),
    s.ctl.refusal = false → s.busIn = [] → s.faultReg = none → s.requests = w :: rest → step s = .next t → t.faultReg ≠ none →
    ∃ reason : FaultReason,
      t = { s with requests := rest, faultReg := some ⟨reason, w⟩ } ∧ step t = .fault (.halted ⟨reason, w⟩) ∧
      ((reason.code = 1 ∧ reason = .illegalRequest ∧ decodeRequest w = .illegalRequest w) ∨
        (reason.code = 2 ∧ reason = .notInitialized ∧ s.phase = .uninit ∧
          ∃ i, decodeRequest w = .instr i ∧ ∀ inv c, i ≠ .init inv c) ∨
        (reason.code = 3 ∧ reason = .reinit ∧ s.phase = .ready ∧ ∃ inv c, decodeRequest w = .instr (.init inv c)) ∨
        (reason.code = 4 ∧ reason = .useAfterFail ∧ s.phase = .failed ∧ ∃ i, decodeRequest w = .instr i))

/-- R28: FAULT is NONE at reset, is set by `raise`, is cleared by no request but by block reset, and while it is not NONE the block
takes no step. -/
def Obligations.AHaltedBlockTakesNoStep : Prop :=
  State.reset.faultReg = none ∧
  (∀ (s : State) (f : FaultReason) (w : Word), (s.raise f w).faultReg = some ⟨f, w⟩) ∧
  (∀ (s t : State) (i : Instr), s.faultReg ≠ none → exec i s = .next t → t.faultReg = s.faultReg) ∧
  (∀ s : State, s.blockReset.faultReg = none) ∧
  (∀ (s : State) (r : FaultRecord), s.faultReg = some r →
    (∀ i : Instr, i.isRequest = true → exec i s = .fault (.halted r)) ∧
    (s.ctl.refusal = false → s.busIn = [] → step s = .fault (.halted r)))

/-- The values R271 gives after block reset (those it leaves unspecified are log 1, log 2 and log 3). -/
def Obligations.BlockResetValues : Prop :=
  State.reset.phase = .uninit ∧ (∀ a, fbRead State.reset.fb a = 0#8) ∧ State.reset.dEmpty = true ∧
  State.reset.faultReg = none ∧ State.reset.cs = .high ∧ State.reset.dc = .low ∧ State.reset.rst = .high ∧
  State.reset.trace = []

/-- R270, R271, R274: block reset of a running machine clears FAULT and gives every register its reset value, whatever it held. -/
def Obligations.BlockResetClearsTheFault : Prop :=
  ∀ s : State,
    s.blockReset.faultReg = none ∧ s.blockReset.phase = .uninit ∧ (∀ a, fbRead s.blockReset.fb a = 0#8) ∧
    s.blockReset.dEmpty = true ∧ s.blockReset.cs = .high ∧ s.blockReset.dc = .low ∧ s.blockReset.rst = .high ∧
    s.blockReset.trace = []

/-- The invariant of the block holds after block reset. -/
def Obligations.ResetHasTheBlockInvariant : Prop := BlockInv State.reset

/-- Every step of the block keeps its invariant: canonical memories, ordered dirty bounds, nothing drawn before an INIT, the
controller in the known addressable state afterwards, no refused byte (R27, R30, R125, R126, R177, R231). -/
def Obligations.EveryStepKeepsTheBlockInvariant : Prop :=
  ∀ s t : State, BlockInv s → step s = .next t → BlockInv t

/-- R231: from a state with the invariant no request sets the refusal mark, and no step is refused. -/
def Obligations.NoRequestOfTheBlockIsRefused : Prop :=
  ∀ s : State, BlockInv s →
    (∀ r, step s ≠ .refused r) ∧ (∀ (i : Instr) (t : State), i.isRequest = true → exec i s = .next t → t.ctl.refusal = false)

/-- What each kind of instruction may write: PHASE, the latches and RST are INIT's alone (R20, R23, R24, R30); `fb` is written by
SET_PIXEL and CLEAR alone (R52, R55); the dirty bounds by those two, D_EMPTY by FLUSH as well (R26); the inputs only by
what takes them. A controller instruction writes nothing but the controller. -/
def Obligations.EachRegisterHasItsWriters : Prop :=
  ∀ (i : Instr) (s t : State), exec i s = .next t →
    ((∀ inv c, i ≠ .init inv c) →
      t.phase = s.phase ∧ t.cfgInv = s.cfgInv ∧ t.cfgContrast = s.cfgContrast ∧ t.rst = s.rst) ∧
    ((∀ x y on, i ≠ .setPixel x y on) → i ≠ .clear →
      t.fb = s.fb ∧ t.dBmin = s.dBmin ∧ t.dBmax = s.dBmax ∧ t.dCmin = s.dCmin ∧ t.dCmax = s.dCmax ∧
        (i ≠ .flush → t.dEmpty = s.dEmpty)) ∧
    ((∀ inv c, i ≠ .init inv c) → i ≠ .flush →
      t.trace = s.trace ∧ t.cs = s.cs ∧ t.dc = s.dc ∧ t.answers = s.answers ∧ t.transportDraws = s.transportDraws) ∧
    (i.isRequest = false → t = { s with ctl := t.ctl }) ∧
    t.requests = s.requests ∧ t.busIn = s.busIn

/-- R240: every request the admission check lets run ends with one response, its status OK (0) or TRANSPORT_ERROR (1), its value
READ_PIXEL's pixel or 0; the block is not halted after it. -/
def Obligations.EveryRequestThatRunsRespondsOnce : Prop :=
  ∀ (i : Instr) (s : State), i.isRequest = true → s.faultReg = none →
    ((s.phase = .uninit ∧ ∃ inv c, i = .init inv c) ∨ (s.phase = .ready ∧ ∀ inv c, i ≠ .init inv c)) →
    ∃ (t : State) (r : Response), exec i s = .next t ∧ t.responses = s.responses ++ [r] ∧ t.faultReg = none ∧
      ((r.status = .ok ∧ r.status.code = 0) ∨ (r.status = .transportError ∧ r.status.code = 1)) ∧
      (∀ x y, i = .readPixel x y → r.value = pixelValue s.fb x y) ∧
      ((∀ x y, i ≠ .readPixel x y) → r.value = false)

/-- R243: TRANSPORT_ERROR comes only from a bus event that answers Err, which is the request's last, so only from INIT and FLUSH;
INIT then leaves FAILED, and FLUSH leaves `fb` and the dirty registers. -/
def Obligations.TransportErrorComesFromTheFirstRefusedEvent : Prop :=
  ∀ (i : Instr) (s t : State) (v : Bool), exec i s = .next t →
    t.responses = s.responses ++ [⟨.transportError, v⟩] →
    (∃ (evs : List BusEvent) (e : BusEvent), t.trace = s.trace ++ evs ++ [e] ∧ (∀ e' ∈ evs, e'.verdict = .ok) ∧
      e.verdict = .err) ∧
    (((∃ inv c, i = .init inv c) ∧ t.phase = .failed) ∨
      (i = .flush ∧ t.fb = s.fb ∧ t.dEmpty = s.dEmpty ∧ t.dBmin = s.dBmin ∧ t.dBmax = s.dBmax ∧ t.dCmin = s.dCmin ∧
        t.dCmax = s.dCmax))

/-- R55: the block never reads the controller. Whatever the controller held, a request does the same to everything else. -/
def Obligations.TheControllerNeverInfluencesTheBlock : Prop :=
  ∀ (i : Instr) (s t : State) (c : Ctl), i.isRequest = true → exec i s = .next t →
    ∃ c' : Ctl, exec i { s with ctl := c } = .next { t with ctl := c' }

/-! ## The bus -/

/-- R101: a transaction with the answer that comes next. -/
def Obligations.ATransactionDeliversWhatItsAnswerSays : Prop :=
  ∀ (dc : BusMode) (bytes : List Byte) (s : State) (a : Answer) (rest : List Answer), s.answers = a :: rest →
    ((txn dc bytes s).1 = .ok ↔ a = .ok) ∧
    (txn dc bytes s).2 = { s with
      cs := .high
      dc := (if dc = .data then .high else .low)
      ctl := s.ctl.deliver (if dc = .data then .high else .low) (match a with | .ok => bytes | .err k => bytes.take k)
      trace := s.trace ++ [.txn dc bytes (txn dc bytes s).1]
      answers := rest }

/-- R104: a pin operation on RST with the answer that comes next. `unspecified` is the model's name for a controller whose every
field is a draw. That the release of the line is the moment it becomes so after a pulse is the model's reading of R201 (log 17). -/
def Obligations.APinOperationMovesTheResetLine : Prop :=
  ∀ (l : Level) (s : State) (rest : List Answer),
    (s.answers = .ok :: rest →
      ∃ c, pinSet l s = (.ok, { s with rst := l, ctl := c, trace := s.trace ++ [.rst l .ok], answers := rest }) ∧
        (¬ (s.rst = .low ∧ l = .high) → c = s.ctl) ∧ (s.rst = .low ∧ l = .high → c = s.ctl.unspecified)) ∧
    (∀ k, s.answers = .err k :: rest →
      ∃ t, pinSet l s = (.err, t) ∧ t.ctl = s.ctl.unspecified ∧ t.trace = s.trace ++ [.rst l .err] ∧ t.answers = rest ∧
        t = { s with rst := t.rst, ctl := t.ctl, trace := t.trace, answers := t.answers, transportDraws := t.transportDraws })

/-- R81, R92, R103: a request only appends to the trace; its command transactions carry only the bytes of R81, one of them from INIT
or an in-range address pair from FLUSH; its data transactions carry 1 to 84 bytes. -/
def Obligations.TheBlockEmitsOnlyItsOwnCommandBytes : Prop :=
  ∀ (i : Instr) (s t : State), i.isRequest = true → DirtyOrdered s → exec i s = .next t →
    ∃ evs : List BusEvent, t.trace = s.trace ++ evs ∧
      (∀ bytes r, .txn .command bytes r ∈ evs →
        (∃ c : BitVec 7, bytes = [0x21#8] ∨ bytes = [0x14#8] ∨ bytes = [0x80#8 ||| c.setWidth 8] ∨ bytes = [0x20#8] ∨
          bytes = [0x0C#8] ∨ bytes = [0x0D#8]) ∨
        (∃ x y : Nat, x ≤ 83 ∧ y ≤ 5 ∧ bytes = [0x80#8 ||| BitVec.ofNat 8 x, 0x40#8 ||| BitVec.ofNat 8 y])) ∧
      (∀ bytes r, .txn .data bytes r ∈ evs → 1 ≤ bytes.length ∧ bytes.length ≤ 84)

/-! ## INIT -/

/-- R121, R124, R126, R272: an INIT whose seven events are accepted. -/
def Obligations.AnAcceptedInitBringsTheControllerUp : Prop :=
  ∀ (s : State) (inv : Bool) (contrast : BitVec 7) (rest : List Answer),
    s.faultReg = none → s.phase = .uninit → s.answers = List.replicate 7 .ok ++ rest →
    ∃ t, exec (.init inv contrast) s = .next t ∧
      t.phase = .ready ∧ t.cfgInv = inv ∧ t.cfgContrast = contrast ∧
      t.trace = s.trace ++ initEvents inv contrast .ok ∧
      t.responses = s.responses ++ [⟨.ok, false⟩] ∧
      t.rst = .high ∧ t.cs = .high ∧ t.dc = .low ∧ t.answers = rest ∧
      Known t.ctl inv contrast ∧
      t = { s with
        phase := t.phase, cfgInv := t.cfgInv, cfgContrast := t.cfgContrast, trace := t.trace, responses := t.responses
        rst := t.rst, cs := t.cs, dc := t.dc, answers := t.answers, ctl := t.ctl }

/-- R121, R243, R245: an INIT whose event number `k` is the first refused ends there. -/
def Obligations.InitStopsAtTheFirstRefusedEvent : Prop :=
  ∀ (s : State) (inv : Bool) (contrast : BitVec 7) (k j : Nat) (rest : List Answer),
    s.faultReg = none → s.phase = .uninit → k < 7 → s.answers = List.replicate k .ok ++ .err j :: rest →
    ∃ t, exec (.init inv contrast) s = .next t ∧
      t.phase = .failed ∧ t.cfgInv = inv ∧ t.cfgContrast = contrast ∧
      t.trace = s.trace ++ (initEvents inv contrast .ok).take k ++ ((initEvents inv contrast .err).drop k).take 1 ∧
      t.responses = s.responses ++ [⟨.transportError, false⟩] ∧
      t.fb = s.fb ∧ t.dEmpty = s.dEmpty ∧ t.answers = rest

/-- R123: every INIT that completes emits one reset pulse and five command transactions, the same whatever its operands but for
the bytes of steps 4 and 6. -/
def Obligations.EveryCompletedInitEmitsOnePulseAndFiveCommands : Prop :=
  ∀ (s t : State) (inv : Bool) (contrast : BitVec 7),
    exec (.init inv contrast) s = .next t → t.responses = s.responses ++ [⟨.ok, false⟩] →
    ∃ step4 step6 : Byte,
      step4 = 0x80#8 ||| contrast.setWidth 8 ∧ step6 = (if inv then 0x0D#8 else 0x0C#8) ∧
      t.trace = s.trace ++ [.rst .low .ok, .rst .high .ok, .txn .command [0x21#8] .ok, .txn .command [0x14#8] .ok,
        .txn .command [step4] .ok, .txn .command [0x20#8] .ok, .txn .command [step6] .ok]

/-- R125, R126: whatever the transport answers, an admitted INIT ends READY with OK and the known controller, or FAILED with
TRANSPORT_ERROR, and writes nothing of the framebuffer. -/
def Obligations.InitEndsReadyOrFailed : Prop :=
  ∀ (s : State) (inv : Bool) (contrast : BitVec 7), s.faultReg = none → s.phase = .uninit →
    ∃ t, exec (.init inv contrast) s = .next t ∧
      ((t.phase = .ready ∧ t.responses = s.responses ++ [⟨.ok, false⟩] ∧ Known t.ctl inv contrast ∧ t.rst = .high) ∨
        (t.phase = .failed ∧ t.responses = s.responses ++ [⟨.transportError, false⟩])) ∧
      t.ctl.refusal = s.ctl.refusal ∧
      t = { s with
        phase := t.phase, cfgInv := inv, cfgContrast := contrast, trace := t.trace, responses := t.responses
        rst := t.rst, cs := t.cs, dc := t.dc, answers := t.answers, transportDraws := t.transportDraws, ctl := t.ctl }

/-! ## The framebuffer -/

/-- R141: an in-bounds SET_PIXEL writes one bit and extends the dirty region, and nothing else but its response. -/
def Obligations.SetPixelWritesOneBitAndExtendsTheRegion : Prop :=
  ∀ (s : State) (x y : Int) (on : Bool), Ready s → inb x y →
    ∃ t, exec (.setPixel x y on) s = .next t ∧
      (∀ j, j < 8 → (fbRead t.fb (cellAddr (y.toNat / 8) x.toNat)).getLsbD j =
        if j = y.toNat % 8 then on else (fbRead s.fb (cellAddr (y.toNat / 8) x.toNat)).getLsbD j) ∧
      (∀ a, a ≠ cellAddr (y.toNat / 8) x.toNat → fbRead t.fb a = fbRead s.fb a) ∧
      t.dEmpty = false ∧
      (s.dEmpty = true → t.dBmin.val = y.toNat / 8 ∧ t.dBmax.val = y.toNat / 8 ∧ t.dCmin.val = x.toNat ∧ t.dCmax.val = x.toNat) ∧
      (s.dEmpty = false →
        t.dBmin.val = min s.dBmin.val (y.toNat / 8) ∧ t.dBmax.val = max s.dBmax.val (y.toNat / 8) ∧
        t.dCmin.val = min s.dCmin.val x.toNat ∧ t.dCmax.val = max s.dCmax.val x.toNat) ∧
      t.responses = s.responses ++ [⟨.ok, false⟩] ∧
      t = { s with
        fb := t.fb, dEmpty := t.dEmpty, dBmin := t.dBmin, dBmax := t.dBmax, dCmin := t.dCmin, dCmax := t.dCmax
        responses := t.responses }

/-- R143: out of bounds SET_PIXEL changes nothing but its response, and READ_PIXEL responds 0. -/
def Obligations.OutOfBoundsIsClipped : Prop :=
  ∀ (s : State) (x y : Int) (on : Bool), Ready s → (x < 0 ∨ 83 < x ∨ y < 0 ∨ 47 < y) →
    exec (.setPixel x y on) s = .next { s with responses := s.responses ++ [⟨.ok, false⟩] } ∧
    exec (.readPixel x y) s = .next { s with responses := s.responses ++ [⟨.ok, false⟩] }

/-- R142: what SET_PIXEL wrote, READ_PIXEL responds. -/
def Obligations.ReadPixelRespondsWhatSetPixelWrote : Prop :=
  ∀ (s : State) (x y : Int) (on : Bool), Ready s → inb x y →
    ∃ t u, exec (.setPixel x y on) s = .next t ∧ exec (.readPixel x y) t = .next u ∧
      u.responses = t.responses ++ [⟨.ok, on⟩]

/-- R160: READ_PIXEL responds the pixel's bit, and changes nothing else. -/
def Obligations.ReadPixelRespondsTheBitAndChangesNothing : Prop :=
  ∀ (s : State) (x y : Int), Ready s → inb x y →
    exec (.readPixel x y) s = .next { s with
      responses := s.responses ++ [⟨.ok, (fbRead s.fb (cellAddr (y.toNat / 8) x.toNat)).getLsbD (y.toNat % 8)⟩] }

/-- R150, R151: after CLEAR every byte is 0, every pixel reads 0 and the region is the full extent; nothing else changes. -/
def Obligations.ClearZeroesAndMarksEverythingDirty : Prop :=
  ∀ s : State, Ready s →
    ∃ t, exec .clear s = .next t ∧ (∀ a, fbRead t.fb a = 0#8) ∧ t.dEmpty = false ∧
      t.dBmin.val = 0 ∧ t.dBmax.val = 5 ∧ t.dCmin.val = 0 ∧ t.dCmax.val = 83 ∧
      t.responses = s.responses ++ [⟨.ok, false⟩] ∧
      (∀ x y : Int, inb x y → ∃ u, exec (.readPixel x y) t = .next u ∧ u.responses = t.responses ++ [⟨.ok, false⟩]) ∧
      t = { s with
        fb := t.fb, dEmpty := t.dEmpty, dBmin := t.dBmin, dBmax := t.dBmax, dCmin := t.dCmin, dCmax := t.dCmax
        responses := t.responses }

/-- R144, R27: from an empty region, after any SET_PIXELs at least one of which is in bounds, the bounds are the least and
greatest bank and column over the in-bounds ones. -/
def Obligations.TheDirtyRegionIsTheSmallestBox : Prop :=
  ∀ (s : State) (ps : List (Int × Int × Bool)), Ready s → s.dEmpty = true → (∃ p ∈ ps, inb p.1 p.2.1) →
    ∃ t, execAll (ps.map fun p => .setPixel p.1 p.2.1 p.2.2) s = .next t ∧ t.dEmpty = false ∧
      (∀ p ∈ ps, inb p.1 p.2.1 → InRegion t (p.2.1.toNat / 8) p.1.toNat) ∧
      (∃ p ∈ ps, inb p.1 p.2.1 ∧ p.2.1.toNat / 8 = t.dBmin.val) ∧ (∃ p ∈ ps, inb p.1 p.2.1 ∧ p.2.1.toNat / 8 = t.dBmax.val) ∧
      (∃ p ∈ ps, inb p.1 p.2.1 ∧ p.1.toNat = t.dCmin.val) ∧ (∃ p ∈ ps, inb p.1 p.2.1 ∧ p.1.toNat = t.dCmax.val)

/-- R94: FILLRECT, given x0 ≤ x1 and y0 ≤ y1, writes exactly the in-bounds pixels of its rectangle; RECT, whichever the order of its
corners, exactly the in-bounds pixels with x ∈ {x0, x1} and y0 ≤ y ≤ y1, or y ∈ {y0, y1} and x0 ≤ x ≤ x1. -/
def Obligations.RectanglesWriteExactlyTheirPixels : Prop :=
  ∀ (s : State) (x0 y0 x1 y1 : Int) (on : Bool), Ready s →
    (x0 ≤ x1 → y0 ≤ y1 → ∃ t, execAll (Asm.fillrect x0 y0 x1 y1 on).expand s = .next t ∧
      ∀ x y, inb x y → pixelValue t.fb x y =
        if (x0 ≤ x ∧ x ≤ x1) ∧ (y0 ≤ y ∧ y ≤ y1) then on else pixelValue s.fb x y) ∧
    (∃ t, execAll (Asm.rect x0 y0 x1 y1 on).expand s = .next t ∧
      ∀ x y, inb x y → pixelValue t.fb x y =
        if ((x = x0 ∨ x = x1) ∧ (y0 ≤ y ∧ y ≤ y1)) ∨ ((y = y0 ∨ y = y1) ∧ (x0 ≤ x ∧ x ≤ x1)) then on
        else pixelValue s.fb x y)

/-! ## FLUSH -/

/-- R171: an empty region issues nothing. -/
def Obligations.FlushOfAnEmptyRegionIsSilent : Prop :=
  ∀ s : State, Ready s → s.dEmpty = true →
    exec .flush s = .next { s with responses := s.responses ++ [⟨.ok, false⟩] }

/-- R171, R173: a FLUSH whose events are accepted emits, for each dirty bank ascending, the address pair and the bank's dirty bytes,
empties the region and changes nothing else of the block. -/
def Obligations.AnAcceptedFlushStreamsTheRegionBankByBank : Prop :=
  ∀ (s : State) (rest : List Answer), Ready s → s.dEmpty = false → DirtyOrdered s →
    s.answers = List.replicate (2 * dirtyBanks s) .ok ++ rest →
    ∃ t, exec .flush s = .next t ∧
      t.trace = s.trace ++ flushEvents s ∧ t.dEmpty = true ∧ t.responses = s.responses ++ [⟨.ok, false⟩] ∧
      t.cs = .high ∧ t.dc = .high ∧ t.answers = rest ∧
      t = { s with
        trace := t.trace, dEmpty := t.dEmpty, responses := t.responses, cs := t.cs, dc := t.dc, answers := t.answers
        ctl := t.ctl }

/-- R172: the traffic of a FLUSH that starts with a region and completes. -/
def Obligations.FlushTrafficCounts : Prop :=
  ∀ s t : State, Ready s → s.dEmpty = false → DirtyOrdered s → exec .flush s = .next t →
    t.responses = s.responses ++ [⟨.ok, false⟩] →
    ∃ evs : List BusEvent, t.trace = s.trace ++ evs ∧ evs.length = 2 * dirtyBanks s ∧
      (∀ k e, evs[k]? = some e → k % 2 = 0 → e.isTxn .command = true ∧ e.byteCount = 2) ∧
      (∀ k e, evs[k]? = some e → k % 2 = 1 →
        e.isTxn .data = true ∧ e.byteCount = dirtyCols s ∧ 1 ≤ e.byteCount ∧ e.byteCount ≤ 84) ∧
      (evs.map BusEvent.byteCount).sum = dirtyBanks s * (2 + dirtyCols s)

/-- R175: after a FLUSH that responds OK every display RAM byte of the rectangle equals the framebuffer's, and no other changed. -/
def Obligations.ACompletedFlushCopiesTheRegionToTheDisplay : Prop :=
  ∀ s t : State, Ready s → s.ctl.h = false → s.dEmpty = false → exec .flush s = .next t →
    t.responses = s.responses ++ [⟨.ok, false⟩] →
    ∀ b c, b < 6 → c < 84 →
      (InRegion s b c → t.ctl.dram b c = fbRead s.fb (cellAddr b c)) ∧ (¬ InRegion s b c → t.ctl.dram b c = s.ctl.dram b c)

/-- R176: whatever the transport answers, a FLUSH of a dirty region responds; it keeps `fb`, the bounds, PHASE and the controller's
settings; it empties the region exactly when it responds OK; and each display RAM byte is as before, or is a byte of the
rectangle now equal to the framebuffer's. -/
def Obligations.FlushKeepsTheRegionUnlessItCompletes : Prop :=
  ∀ s : State, Ready s → s.ctl.h = false → s.dEmpty = false →
    ∃ t, exec .flush s = .next t ∧
      ((t.responses = s.responses ++ [⟨.ok, false⟩] ∧ t.dEmpty = true) ∨
        (t.responses = s.responses ++ [⟨.transportError, false⟩] ∧ t.dEmpty = false)) ∧
      (t.ctl.h = false ∧ t.ctl.pd = s.ctl.pd ∧ t.ctl.v = s.ctl.v ∧ t.ctl.bs = s.ctl.bs ∧ t.ctl.vop = s.ctl.vop ∧
        t.ctl.tc = s.ctl.tc ∧ t.ctl.d = s.ctl.d ∧ t.ctl.e = s.ctl.e ∧ t.ctl.refusal = s.ctl.refusal) ∧
      (∀ b c, b < 6 → c < 84 → t.ctl.dram b c = s.ctl.dram b c ∨
        (InRegion s b c ∧ t.ctl.dram b c = fbRead s.fb (cellAddr b c))) ∧
      t = { s with
        trace := t.trace, dEmpty := t.dEmpty, responses := t.responses, cs := t.cs, dc := t.dc, answers := t.answers
        transportDraws := t.transportDraws, ctl := t.ctl }

/-- R174: after a FLUSH that responds OK, a second one with nothing but READ_PIXELs between issues no bus event. -/
def Obligations.ASecondFlushIsSilent : Prop :=
  ∀ (s t : State) (ps : List (Int × Int)), Ready s → exec .flush s = .next t →
    t.responses = s.responses ++ [⟨.ok, false⟩] →
    ∃ u v, execAll (ps.map fun p => .readPixel p.1 p.2) t = .next u ∧ exec .flush u = .next v ∧
      v.trace = t.trace ∧ v.ctl = t.ctl ∧ v.responses = u.responses ++ [⟨.ok, false⟩]

/-- R63: after CLEAR and a FLUSH that responds OK the display RAM equals the framebuffer everywhere. -/
def Obligations.ClearThenFlushSynchronisesTheWholeDisplay : Prop :=
  ∀ s : State, Ready s → s.ctl.h = false →
    ∃ t u, exec .clear s = .next t ∧ exec .flush t = .next u ∧
      (u.responses = t.responses ++ [⟨.ok, false⟩] →
        ∀ b c, b < 6 → c < 84 → u.ctl.dram b c = fbRead u.fb (cellAddr b c) ∧ u.ctl.dram b c = 0#8)

/-- R176, R287: after a FLUSH that responds TRANSPORT_ERROR, a retried one that responds OK brings the rectangle back in step, and
between them they changed no other byte. -/
def Obligations.ARetriedFlushResynchronisesTheRegion : Prop :=
  ∀ s t u : State, Ready s → s.ctl.h = false → s.dEmpty = false →
    exec .flush s = .next t → t.responses = s.responses ++ [⟨.transportError, false⟩] →
    exec .flush t = .next u → u.responses = t.responses ++ [⟨.ok, false⟩] →
    u.fb = s.fb ∧ ∀ b c, b < 6 → c < 84 →
      (InRegion s b c → u.ctl.dram b c = fbRead s.fb (cellAddr b c)) ∧ (¬ InRegion s b c → u.ctl.dram b c = s.ctl.dram b c)

/-! ## The target controller -/

/-- R210: FUNCTION_SET, in either mode; the power-down and vertical-addressing forms are refused; no other controller instruction
changes `H` in a run without the refusal mark. -/
def Obligations.FunctionSetSelectsTheMode : Prop :=
  (∀ (s : State) (h : Bool),
    exec (.functionSet false false h) s = .next { s with ctl := { s.ctl with pd := false, v := false, h := h } }) ∧
  (∀ (s : State) (pd v h : Bool), (pd = true ∨ v = true) →
    ∃ t, exec (.functionSet pd v h) s = .next t ∧ t.ctl.refusal = true ∧ t = { s with ctl := t.ctl }) ∧
  (∀ (s t : State) (i : Instr), i.isRequest = false → (∀ pd v h, i ≠ .functionSet pd v h) → exec i s = .next t →
    t.ctl.refusal = false → t.ctl.h = s.ctl.h)

/-- R211: SET_BIAS in extended mode writes BS alone; in basic mode its byte is refused. -/
def Obligations.SetBiasNeedsExtendedMode : Prop :=
  ∀ (s : State) (bs : BitVec 3),
    (s.ctl.h = true → exec (.setBias bs) s = .next { s with ctl := { s.ctl with bs := bs } }) ∧
    (s.ctl.h = false → ∃ t, exec (.setBias bs) s = .next t ∧ t.ctl.refusal = true ∧ t = { s with ctl := t.ctl })

/-- R217: TEMP_CONTROL in extended mode writes TC alone; in basic mode its byte is reserved (R91) and refused. -/
def Obligations.TempControlNeedsExtendedMode : Prop :=
  ∀ (s : State) (tc : BitVec 2),
    (s.ctl.h = true → exec (.tempControl tc) s = .next { s with ctl := { s.ctl with tc := tc } }) ∧
    (s.ctl.h = false → ∃ t, exec (.tempControl tc) s = .next t ∧ t.ctl.refusal = true ∧ t = { s with ctl := t.ctl })

/-- R212, R215, R283: one byte pattern is SET_VOP in extended mode and SET_X in basic mode, whichever name it is given; SET_X
beyond column 83 is refused. -/
def Obligations.SetXAndSetVopDifferByTheModeAlone : Prop :=
  ∀ (s : State) (n : BitVec 7) (i : Instr), i = .setX n ∨ i = .setVop n →
    (s.ctl.h = true → exec i s = .next { s with ctl := { s.ctl with vop := n } }) ∧
    (s.ctl.h = false → ∀ hn : n.toNat ≤ 83,
      exec i s = .next { s with ctl := { s.ctl with x := ⟨n.toNat, Nat.lt_succ_of_le hn⟩ } }) ∧
    (s.ctl.h = false → 83 < n.toNat → ∃ t, exec i s = .next t ∧ t.ctl.refusal = true ∧ t = { s with ctl := t.ctl })

/-- R214: SET_Y in basic mode moves Y alone for 0..5; 6, 7 and the byte in extended mode are refused; it commutes with SET_X. -/
def Obligations.SetYMovesTheBankCounterAlone : Prop :=
  (∀ (s : State) (y : BitVec 3) (hy : y.toNat ≤ 5), s.ctl.h = false →
    exec (.setY y) s = .next { s with ctl := { s.ctl with y := ⟨y.toNat, Nat.lt_succ_of_le hy⟩ } }) ∧
  (∀ (s : State) (y : BitVec 3), (s.ctl.h = true ∨ 5 < y.toNat) →
    ∃ t, exec (.setY y) s = .next t ∧ t.ctl.refusal = true ∧ t = { s with ctl := t.ctl }) ∧
  (∀ (s : State) (x : BitVec 7) (y : BitVec 3), s.ctl.h = false → x.toNat ≤ 83 → y.toNat ≤ 5 →
    ∃ t, execAll [.setX x, .setY y] s = .next t ∧ execAll [.setY y, .setX x] s = .next t ∧
      t.ctl.x.val = x.toNat ∧ t.ctl.y.val = y.toNat)

/-- R213, R224: DISPLAY_CONTROL writes D and E alone in basic mode; in extended mode it leaves BS, VOP, D and E unconstrained,
everything else as it was, and does not look at its operands. -/
def Obligations.DisplayControlNeedsBasicMode : Prop :=
  ∀ (s : State) (d e : Bool),
    (s.ctl.h = false → exec (.displayControl d e) s = .next { s with ctl := { s.ctl with d := d, e := e } }) ∧
    (s.ctl.h = true →
      (∃ t, exec (.displayControl d e) s = .next t ∧
        t = { s with ctl := { s.ctl with
          bs := t.ctl.bs, vop := t.ctl.vop, d := t.ctl.d, e := t.ctl.e, draws := t.ctl.draws } }) ∧
      ∀ d' e' : Bool, exec (.displayControl d e) s = exec (.displayControl d' e') s)

/-- R216: NOP changes no state, in either mode. -/
def Obligations.NopChangesNothing : Prop :=
  ∀ s : State, exec .nop s = .next s

/-- R220, R221, R222: a data byte lands at the addressed byte, whatever the mode, and no other byte changes; the column counter
advances, or wraps to 0 with the bank counter a draw; nothing else of the machine changes. -/
def Obligations.ADataByteLandsAndTheCountersAdvance : Prop :=
  ∀ (s : State) (v : Byte),
    ∃ t, exec (.data v) s = .next t ∧
      (∀ a, t.ctl.ramRead a = if a = cellAddr s.ctl.y.val s.ctl.x.val then v else s.ctl.ramRead a) ∧
      (s.ctl.x.val < 83 → t.ctl.x.val = s.ctl.x.val + 1 ∧ t.ctl.y = s.ctl.y) ∧
      (s.ctl.x.val = 83 → t.ctl.x.val = 0) ∧
      t = { s with ctl := { s.ctl with ram := t.ctl.ram, x := t.ctl.x, y := t.ctl.y, draws := t.ctl.draws } }

/-- R173: data bytes delivered from an addressed column, not past column 83, fill consecutive columns of the addressed bank. -/
def Obligations.ADataStreamFillsConsecutiveColumns : Prop :=
  ∀ (c : Ctl) (bytes : List Byte), c.x.val + bytes.length ≤ 84 →
    (∀ j, (hj : j < bytes.length) → (c.deliver .high bytes).dram c.y.val (c.x.val + j) = bytes[j]) ∧
    (∀ b col, b < 6 → col < 84 → ¬ (b = c.y.val ∧ c.x.val ≤ col ∧ col < c.x.val + bytes.length) →
      (c.deliver .high bytes).dram b col = c.dram b col)

/-- R230: a refused byte, received as a command, sets the refusal mark: a FUNCTION_SET with PD or V, a SET_Y beyond 5, a SET_X beyond
83, a reserved byte; no instruction clears the mark. -/
def Obligations.ARefusedByteMarksTheRun : Prop :=
  (∀ (c : Ctl) (b : Byte),
    ((b &&& 0xF8#8 = 0x20#8 ∧ (b.getLsbD 2 = true ∨ b.getLsbD 1 = true)) ∨
      (c.h = false ∧ b &&& 0xF8#8 = 0x40#8 ∧ 5 < (b.extractLsb' 0 3).toNat) ∨
      (c.h = false ∧ b &&& 0x80#8 = 0x80#8 ∧ 83 < (b.extractLsb' 0 7).toNat) ∨
      decodeCommand c.h b = .reservedByte b) →
    (c.receive .low b).refusal = true) ∧
  (∀ (i : Instr) (s t : State), exec i s = .next t → s.ctl.refusal = true → t.ctl.refusal = true)

/-- A reserved byte on the bench input (log 12) touches the controller alone, and a run that carries the refusal mark takes no further
step: the model's choice (log 9), where R230 makes no claim. -/
def Obligations.AMarkedRunTakesNoStep : Prop :=
  (∀ (s : State) (b : Byte) (rest : List Byte),
    s.ctl.refusal = false → s.busIn = b :: rest → s.cs = .low → s.dc = .low → decodeCommand s.ctl.h b = .reservedByte b →
    ∃ t, step s = .next t ∧ t.ctl.refusal = true ∧ t = { s with busIn := rest, ctl := t.ctl }) ∧
  (∀ s : State, s.ctl.refusal = true → step s = .refused .markedRun)

/-- R225: the bytes 0x21, 0x14, 0x80|contrast, 0x20, 0x0C|inv bring a controller to the known addressable state, whatever it held. -/
def Obligations.TheInitBytesReachTheKnownState : Prop :=
  ∀ (c : Ctl) (inv : Bool) (contrast : BitVec 7),
    Known (c.deliver .low [0x21#8, 0x14#8, 0x80#8 ||| contrast.setWidth 8, 0x20#8, 0x0C#8 ||| (BitVec.ofBool inv).setWidth 8])
      inv contrast

/-- R226: the image on the glass by display mode. -/
def Obligations.TheGlassShowsTheDisplayMode : Prop :=
  ∀ (c : Ctl) (b : Fin 6) (col : Fin 84) (i : Fin 8),
    (c.d = false → c.e = false → c.glassOn b col i = false) ∧
    (c.d = true → c.e = false → c.glassOn b col i = (c.dram b.val col.val).getLsbD i.val) ∧
    (c.d = false → c.e = true → c.glassOn b col i = true) ∧
    (c.d = true → c.e = true → c.glassOn b col i = !(c.dram b.val col.val).getLsbD i.val) ∧
    (Config.pixelOnDark = true → c.glassDark b col i = c.glassOn b col i) ∧
    (Config.pixelOnDark = false → c.glassDark b col i = !c.glassOn b col i)
end

