-- ==== Sys2Proof/Laws/Memory.lean ====
section
/-! SUPPORT. Reading after writing, and the canonical forms, of the memory operations. -/

namespace Sys2Proof.Machine

/-! ## Reading after writing -/

theorem Memory.read_put (d v : Byte) (a b : Nat) (m : Memory) :
    Memory.read d b (Memory.put a v m) = if b = a then v else Memory.read d b m := by
  induction m with
  | nil => grind [Memory.put, Memory.read]
  | cons p rest ih => grind [Memory.put, Memory.read]

theorem Memory.read_drop (d : Byte) (a b : Nat) (m : Memory) :
    Memory.read d b (Memory.drop a m) = if b = a then d else Memory.read d b m := by
  induction m with
  | nil => grind [Memory.drop, Memory.read]
  | cons p rest ih => grind [Memory.drop, Memory.read]

@[simp] theorem fbRead_nil (a : Nat) : fbRead [] a = 0#8 := rfl

/-- The one thing `fbWrite` does. -/
theorem fbRead_fbWrite (m : Memory) (a b : Nat) (v : Byte) :
    fbRead (fbWrite m a v) b = if b = a then v else fbRead m b := by
  unfold fbRead fbWrite
  split
  · next h => rw [Memory.read_drop, h]
  · rw [Memory.read_put]

/-! ## The canonical forms -/

theorem Memory.mem_put {a : Nat} {v : Byte} {m : Memory} {p : Host.Cell} (h : p ∈ Memory.put a v m) :
    p = (a, v) ∨ p ∈ m := by
  induction m with
  | nil => simpa [Memory.put] using h
  | cons q rest ih =>
    obtain ⟨k, w⟩ := q
    simp only [Memory.put] at h
    split at h
    · simpa using h
    · split at h
      · rcases List.mem_cons.1 h with h | h
        · exact .inl h
        · exact .inr (List.mem_cons_of_mem _ h)
      · rcases List.mem_cons.1 h with h | h
        · exact .inr (h ▸ List.mem_cons_self)
        · exact (ih h).imp id (List.mem_cons_of_mem _)

theorem Memory.mem_drop {a : Nat} {m : Memory} {p : Host.Cell} (h : p ∈ Memory.drop a m) : p ∈ m := by
  induction m with
  | nil => simp [Memory.drop] at h
  | cons q rest ih =>
    obtain ⟨k, w⟩ := q
    simp only [Memory.drop] at h
    split at h
    · exact List.mem_cons_of_mem _ (ih h)
    · rcases List.mem_cons.1 h with h | h
      · exact h ▸ List.mem_cons_self
      · exact List.mem_cons_of_mem _ (ih h)

theorem Memory.put_rising {m : Memory} (hm : m.rising) (a : Nat) (v : Byte) : (Memory.put a v m).rising := by
  induction m with
  | nil => simp [Memory.put, Memory.rising]
  | cons q rest ih =>
    obtain ⟨k, w⟩ := q
    have hr := List.pairwise_cons.1 hm
    simp only [Memory.put]
    split
    · next h =>
      refine List.pairwise_cons.2 ⟨fun p hp => ?_, hm⟩
      rcases List.mem_cons.1 hp with rfl | hp
      · exact h
      · exact Nat.lt_trans h (hr.1 p hp)
    · split
      · next h => subst h; exact List.pairwise_cons.2 ⟨hr.1, hr.2⟩
      · refine List.pairwise_cons.2 ⟨fun p hp => ?_, ih hr.2⟩
        rcases Memory.mem_put hp with rfl | hp
        · show k < a
          omega
        · exact hr.1 p hp

theorem Memory.drop_rising {m : Memory} (hm : m.rising) (a : Nat) : (Memory.drop a m).rising := by
  induction m with
  | nil => simp [Memory.drop, Memory.rising]
  | cons q rest ih =>
    obtain ⟨k, w⟩ := q
    have hr := List.pairwise_cons.1 hm
    simp only [Memory.drop]
    split
    · exact ih hr.2
    · exact List.pairwise_cons.2 ⟨fun p hp => hr.1 p (Memory.mem_drop hp), ih hr.2⟩

/-- Every address a bank and column give is one of the 504 (R50). -/
theorem cellAddr_lt {b c : Nat} (hb : b < 6) (hc : c < 84) : cellAddr b c < Config.fbBytes := by
  unfold cellAddr Config.cols Config.fbBytes; omega

/-- An address names one bank and column (R50). -/
theorem cellAddr_inj {b c b' c' : Nat} (hc : c < 84) (hc' : c' < 84) :
    cellAddr b c = cellAddr b' c' ↔ b = b' ∧ c = c' := by
  unfold cellAddr Config.cols; omega

/-- A framebuffer write keeps the canonical form. -/
theorem fbWrite_wf {m : Memory} (hm : m.wf) {a : Nat} (ha : a < Config.fbBytes) (v : Byte) : (fbWrite m a v).wf := by
  unfold fbWrite
  split
  · exact ⟨Memory.drop_rising hm.1 a, fun p hp => hm.2 p (Memory.mem_drop hp)⟩
  · next h =>
    refine ⟨Memory.put_rising hm.1 a v, fun p hp => ?_⟩
    rcases Memory.mem_put hp with rfl | hp
    · exact ⟨ha, h⟩
    · exact hm.2 p hp

/-- A display RAM write keeps the canonical form. -/
theorem Memory.put_ramWf {m : Memory} (hm : m.ramWf) {a : Nat} (ha : a < Config.fbBytes) (v : Byte) :
    (Memory.put a v m).ramWf := by
  refine ⟨Memory.put_rising hm.1 a v, fun p hp => ?_⟩
  rcases Memory.mem_put hp with rfl | hp
  · exact ha
  · exact hm.2 p hp

theorem Memory.nil_wf : Memory.wf [] := by simp [Memory.wf, Memory.rising]
theorem Memory.nil_ramWf : Memory.ramWf [] := by simp [Memory.ramWf, Memory.rising]

/-- The reset state's memories are in canonical form. -/
theorem reset_memories_wf : State.reset.fb.wf ∧ State.reset.ctl.ram.ramWf := ⟨Memory.nil_wf, Memory.nil_ramWf⟩

end Sys2Proof.Machine
end

