-- ==== Sys2Proof/Laws/Controller.lean ====
section
/-! SUPPORT. What the controller's operations do, field by field, and what a data stream does. -/

namespace Sys2Proof.Machine

/-! ## Unspecified states -/

@[simp] theorem Ctl.unspecified_refusal (c : Ctl) : c.unspecified.refusal = c.refusal := rfl
@[simp] theorem Ctl.unspecified_ram (c : Ctl) : c.unspecified.ram = [] := rfl
@[simp] theorem Ctl.refuse_refusal (c : Ctl) : c.refuse.refusal = true := rfl
@[simp] theorem Ctl.refuse_ram (c : Ctl) : c.refuse.ram = [] := rfl

/-! ## Data bytes -/

/-- The settings a data byte or an address command leaves alone. -/
def Ctl.SameSettings (c c' : Ctl) : Prop :=
  c'.h = c.h ∧ c'.pd = c.pd ∧ c'.v = c.v ∧ c'.bs = c.bs ∧ c'.vop = c.vop ∧ c'.tc = c.tc ∧ c'.d = c.d ∧ c'.e = c.e ∧
    c'.refusal = c.refusal ∧ c'.ramEpoch = c.ramEpoch

theorem Ctl.SameSettings.rfl {c : Ctl} : c.SameSettings c := ⟨.refl _, .refl _, .refl _, .refl _, .refl _, .refl _, .refl _, .refl _, .refl _, .refl _⟩

theorem Ctl.SameSettings.trans {c d e : Ctl} (h : c.SameSettings d) (h' : d.SameSettings e) : c.SameSettings e := by
  unfold Ctl.SameSettings at *; grind

theorem Ctl.data_same (v : Byte) (c : Ctl) : c.SameSettings (c.data v) := by
  unfold Ctl.SameSettings Ctl.data Ctl.advance; split <;> simp

theorem Ctl.data_ram (v : Byte) (c : Ctl) : (c.data v).ram = Memory.put c.dataAddr v c.ram := by
  unfold Ctl.data Ctl.advance; split <;> rfl

/-- Below column 83 the column counter advances and the bank counter stays (R221). -/
theorem Ctl.data_below {c : Ctl} (h : c.x.val < 83) (v : Byte) :
    (c.data v).x.val = c.x.val + 1 ∧ (c.data v).y = c.y := by
  unfold Ctl.data Ctl.advance; simp [h]

/-- At column 83 the column counter wraps and the bank counter is a draw (R222). -/
theorem Ctl.data_wrap {c : Ctl} (h : c.x.val = 83) (v : Byte) :
    (c.data v).x = 0 ∧ (c.data v).y = Config.wrapBank c.draws := by
  unfold Ctl.data Ctl.advance; simp [h]

theorem Ctl.ramRead_data (v : Byte) (c : Ctl) (a : Nat) :
    (c.data v).ramRead a = if a = c.dataAddr then v else c.ramRead a := by
  unfold Ctl.ramRead
  rw [(Ctl.data_same v c).2.2.2.2.2.2.2.2.2, Ctl.data_ram, Memory.read_put]

theorem Ctl.dataAddr_lt (c : Ctl) : c.dataAddr < Config.fbBytes := cellAddr_lt c.y.isLt c.x.isLt

theorem Ctl.data_ramWf {c : Ctl} (h : c.ram.ramWf) (v : Byte) : (c.data v).ram.ramWf := by
  rw [Ctl.data_ram]; exact Memory.put_ramWf h c.dataAddr_lt v

/-! ## Delivery -/

@[simp] theorem Ctl.deliver_nil (dc : Level) (c : Ctl) : c.deliver dc [] = c := rfl
@[simp] theorem Ctl.deliver_cons (dc : Level) (b : Byte) (bs : List Byte) (c : Ctl) :
    c.deliver dc (b :: bs) = (c.receive dc b).deliver dc bs := rfl
@[simp] theorem Ctl.receive_high (b : Byte) (c : Ctl) : c.receive .high b = c.data b := rfl

/-- A data stream that ends by column 83 changes the settings not at all, fills consecutive columns of the addressed bank, and
leaves every other display RAM byte (R220, R221). -/
theorem Ctl.deliver_data (bytes : List Byte) (c : Ctl) (h : c.x.val + bytes.length ≤ 84) :
    c.SameSettings (c.deliver .high bytes) ∧
      ∀ a, (c.deliver .high bytes).ramRead a =
        if c.dataAddr ≤ a ∧ a < c.dataAddr + bytes.length then bytes.getD (a - c.dataAddr) 0#8 else c.ramRead a := by
  induction bytes generalizing c with
  | nil => exact ⟨.rfl, fun a => by rw [if_neg (by simp only [List.length_nil]; omega)]; rfl⟩
  | cons b rest ih =>
    simp only [Ctl.deliver_cons, Ctl.receive_high, List.length_cons] at *
    by_cases hx : c.x.val < 83
    · have hb := Ctl.data_below hx b
      have haddr : (c.data b).dataAddr = c.dataAddr + 1 := by
        unfold Ctl.dataAddr cellAddr; rw [hb.1, hb.2]; omega
      obtain ⟨hs, hr⟩ := ih (c.data b) (by omega)
      refine ⟨(Ctl.data_same b c).trans hs, fun a => ?_⟩
      rw [hr a, Ctl.ramRead_data, haddr]
      by_cases h1 : a = c.dataAddr
      · subst h1
        rw [if_neg (by omega), if_pos rfl, if_pos (by omega)]; simp
      · by_cases h2 : c.dataAddr + 1 ≤ a ∧ a < c.dataAddr + 1 + rest.length
        · rw [if_pos h2, if_pos (by omega)]
          have : a - c.dataAddr = (a - (c.dataAddr + 1)) + 1 := by omega
          simp [this]
        · rw [if_neg h2, if_neg h1, if_neg (by omega)]
    · have hl : rest = [] := by
        cases rest with
        | nil => rfl
        | cons _ _ => simp at h; omega
      subst hl
      refine ⟨Ctl.data_same b c, fun a => ?_⟩
      simp only [Ctl.deliver_nil, Ctl.ramRead_data, List.length_nil]
      by_cases h1 : a = c.dataAddr
      · subst h1; simp
      · rw [if_neg h1, if_neg (by omega)]

/-- Any data stream keeps the display RAM's canonical form. -/
theorem Ctl.deliver_data_ramWf (bytes : List Byte) {c : Ctl} (h : c.ram.ramWf) : (c.deliver .high bytes).ram.ramWf := by
  induction bytes generalizing c with
  | nil => exact h
  | cons b rest ih => exact ih (Ctl.data_ramWf h b)

/-! ## The refusal mark -/

/-- No controller instruction clears the refusal mark (R230). -/
theorem Ctl.run_refusal (i : Instr) {c : Ctl} (h : c.refusal = true) : (c.run i).refusal = true := by
  cases i <;>
    simp only [Ctl.run, Ctl.nop, Ctl.functionSet, Ctl.displayControl, Ctl.corrupt, Ctl.setY, Ctl.setX, Ctl.takeX, Ctl.takeVop,
      Ctl.tempControl, Ctl.setBias, Ctl.setVop, (Ctl.data_same _ _).2.2.2.2.2.2.2.2.1, h] <;>
    (repeat' split) <;> first | exact h | rfl

theorem Ctl.receive_refusal (dc : Level) (b : Byte) {c : Ctl} (h : c.refusal = true) : (c.receive dc b).refusal = true := by
  unfold Ctl.receive
  split
  · exact Ctl.run_refusal _ h
  · exact h
  · rfl

theorem Ctl.deliver_refusal (dc : Level) (bytes : List Byte) {c : Ctl} (h : c.refusal = true) :
    (c.deliver dc bytes).refusal = true := by
  induction bytes generalizing c with
  | nil => exact h
  | cons b rest ih => exact ih (Ctl.receive_refusal dc b h)

/-! ## The command bytes the block emits -/

theorem decode_cmdSetX : ∀ n : Fin 84, decodeCommand false (cmdSetX n.val) = .instr (.setX (BitVec.ofNat 7 n.val)) := by decide
theorem decode_cmdSetY : ∀ n : Fin 6, decodeCommand false (cmdSetY n.val) = .instr (.setY (BitVec.ofNat 3 n.val)) := by decide
theorem decode_cmdFsetExt : ∀ h : Bool, decodeCommand h cmdFsetExt = .instr (.functionSet false false true) := by decide
theorem decode_cmdFsetBasic : ∀ h : Bool, decodeCommand h cmdFsetBasic = .instr (.functionSet false false false) := by decide
theorem decode_cmdBias : decodeCommand true cmdBias = .instr (.setBias Config.bias) := by decide
theorem decode_cmdVop (c : BitVec 7) : decodeCommand true (cmdVop c) = .instr (.setVop c) := by
  revert c; decide
theorem decode_cmdDctl : ∀ inv : Bool, decodeCommand false (cmdDctl inv) = .instr (.displayControl true inv) := by decide

theorem Ctl.receive_cmdSetX {c : Ctl} (h : c.h = false) (n : Fin 84) :
    c.receive .low (cmdSetX n.val) = { c with x := n } := by
  have hn : (BitVec.ofNat 7 n.val).toNat = n.val := by simp; omega
  have hlt : (BitVec.ofNat 7 n.val).toNat < 84 := by omega
  simp only [Ctl.receive, byteCode, decode, h, decode_cmdSetX, Ctl.run, Ctl.setX, Ctl.takeX, hn]
  simp

theorem Ctl.receive_cmdSetY {c : Ctl} (h : c.h = false) (n : Fin 6) :
    c.receive .low (cmdSetY n.val) = { c with y := n } := by
  have hn : (BitVec.ofNat 3 n.val).toNat = n.val := by simp; omega
  have hlt : (BitVec.ofNat 3 n.val).toNat < 6 := by omega
  simp only [Ctl.receive, byteCode, decode, h, decode_cmdSetY, Ctl.run, Ctl.setY, hn]
  simp

theorem Ctl.receive_cmdFsetExt (c : Ctl) :
    c.receive .low cmdFsetExt = { c with pd := false, v := false, h := true } := by
  simp [Ctl.receive, byteCode, decode, decode_cmdFsetExt, Ctl.run, Ctl.functionSet]

theorem Ctl.receive_cmdFsetBasic (c : Ctl) :
    c.receive .low cmdFsetBasic = { c with pd := false, v := false, h := false } := by
  simp [Ctl.receive, byteCode, decode, decode_cmdFsetBasic, Ctl.run, Ctl.functionSet]

theorem Ctl.receive_cmdBias {c : Ctl} (h : c.h = true) : c.receive .low cmdBias = { c with bs := Config.bias } := by
  simp [Ctl.receive, byteCode, decode, h, decode_cmdBias, Ctl.run, Ctl.setBias]

theorem Ctl.receive_cmdVop {c : Ctl} (h : c.h = true) (vop : BitVec 7) :
    c.receive .low (cmdVop vop) = { c with vop := vop } := by
  simp [Ctl.receive, byteCode, decode, h, decode_cmdVop, Ctl.run, Ctl.setVop, Ctl.takeVop]

theorem Ctl.receive_cmdDctl {c : Ctl} (h : c.h = false) (inv : Bool) :
    c.receive .low (cmdDctl inv) = { c with d := true, e := inv } := by
  simp [Ctl.receive, byteCode, decode, h, decode_cmdDctl, Ctl.run, Ctl.displayControl]

end Sys2Proof.Machine
end

