-- ==== Sys2Proof/Laws/State.lean ====
section
/-! SUPPORT. One lemma per field per named update of State. -/

namespace Sys2Proof.Machine

/-! ## respond -/

@[simp] theorem State.respond_phase (st : Status) (b : Bool) (s : State) : (s.respond st b).phase = s.phase := rfl
@[simp] theorem State.respond_cfgInv (st : Status) (b : Bool) (s : State) : (s.respond st b).cfgInv = s.cfgInv := rfl
@[simp] theorem State.respond_cfgContrast (st : Status) (b : Bool) (s : State) : (s.respond st b).cfgContrast = s.cfgContrast := rfl
@[simp] theorem State.respond_fb (st : Status) (b : Bool) (s : State) : (s.respond st b).fb = s.fb := rfl
@[simp] theorem State.respond_dEmpty (st : Status) (b : Bool) (s : State) : (s.respond st b).dEmpty = s.dEmpty := rfl
@[simp] theorem State.respond_dBmin (st : Status) (b : Bool) (s : State) : (s.respond st b).dBmin = s.dBmin := rfl
@[simp] theorem State.respond_dBmax (st : Status) (b : Bool) (s : State) : (s.respond st b).dBmax = s.dBmax := rfl
@[simp] theorem State.respond_dCmin (st : Status) (b : Bool) (s : State) : (s.respond st b).dCmin = s.dCmin := rfl
@[simp] theorem State.respond_dCmax (st : Status) (b : Bool) (s : State) : (s.respond st b).dCmax = s.dCmax := rfl
@[simp] theorem State.respond_faultReg (st : Status) (b : Bool) (s : State) : (s.respond st b).faultReg = s.faultReg := rfl
@[simp] theorem State.respond_rst (st : Status) (b : Bool) (s : State) : (s.respond st b).rst = s.rst := rfl
@[simp] theorem State.respond_cs (st : Status) (b : Bool) (s : State) : (s.respond st b).cs = s.cs := rfl
@[simp] theorem State.respond_dc (st : Status) (b : Bool) (s : State) : (s.respond st b).dc = s.dc := rfl
@[simp] theorem State.respond_trace (st : Status) (b : Bool) (s : State) : (s.respond st b).trace = s.trace := rfl
@[simp] theorem State.respond_responses (st : Status) (b : Bool) (s : State) : (s.respond st b).responses = s.responses ++ [⟨st, b⟩] := rfl
@[simp] theorem State.respond_ctl (st : Status) (b : Bool) (s : State) : (s.respond st b).ctl = s.ctl := rfl
@[simp] theorem State.respond_requests (st : Status) (b : Bool) (s : State) : (s.respond st b).requests = s.requests := rfl
@[simp] theorem State.respond_answers (st : Status) (b : Bool) (s : State) : (s.respond st b).answers = s.answers := rfl
@[simp] theorem State.respond_transportDraws (st : Status) (b : Bool) (s : State) : (s.respond st b).transportDraws = s.transportDraws := rfl
@[simp] theorem State.respond_busIn (st : Status) (b : Bool) (s : State) : (s.respond st b).busIn = s.busIn := rfl

/-! ## raise -/

@[simp] theorem State.raise_phase (r : FaultReason) (w : Word) (s : State) : (s.raise r w).phase = s.phase := rfl
@[simp] theorem State.raise_cfgInv (r : FaultReason) (w : Word) (s : State) : (s.raise r w).cfgInv = s.cfgInv := rfl
@[simp] theorem State.raise_cfgContrast (r : FaultReason) (w : Word) (s : State) : (s.raise r w).cfgContrast = s.cfgContrast := rfl
@[simp] theorem State.raise_fb (r : FaultReason) (w : Word) (s : State) : (s.raise r w).fb = s.fb := rfl
@[simp] theorem State.raise_dEmpty (r : FaultReason) (w : Word) (s : State) : (s.raise r w).dEmpty = s.dEmpty := rfl
@[simp] theorem State.raise_dBmin (r : FaultReason) (w : Word) (s : State) : (s.raise r w).dBmin = s.dBmin := rfl
@[simp] theorem State.raise_dBmax (r : FaultReason) (w : Word) (s : State) : (s.raise r w).dBmax = s.dBmax := rfl
@[simp] theorem State.raise_dCmin (r : FaultReason) (w : Word) (s : State) : (s.raise r w).dCmin = s.dCmin := rfl
@[simp] theorem State.raise_dCmax (r : FaultReason) (w : Word) (s : State) : (s.raise r w).dCmax = s.dCmax := rfl
@[simp] theorem State.raise_faultReg (r : FaultReason) (w : Word) (s : State) : (s.raise r w).faultReg = some ⟨r, w⟩ := rfl
@[simp] theorem State.raise_rst (r : FaultReason) (w : Word) (s : State) : (s.raise r w).rst = s.rst := rfl
@[simp] theorem State.raise_cs (r : FaultReason) (w : Word) (s : State) : (s.raise r w).cs = s.cs := rfl
@[simp] theorem State.raise_dc (r : FaultReason) (w : Word) (s : State) : (s.raise r w).dc = s.dc := rfl
@[simp] theorem State.raise_trace (r : FaultReason) (w : Word) (s : State) : (s.raise r w).trace = s.trace := rfl
@[simp] theorem State.raise_responses (r : FaultReason) (w : Word) (s : State) : (s.raise r w).responses = s.responses := rfl
@[simp] theorem State.raise_ctl (r : FaultReason) (w : Word) (s : State) : (s.raise r w).ctl = s.ctl := rfl
@[simp] theorem State.raise_requests (r : FaultReason) (w : Word) (s : State) : (s.raise r w).requests = s.requests := rfl
@[simp] theorem State.raise_answers (r : FaultReason) (w : Word) (s : State) : (s.raise r w).answers = s.answers := rfl
@[simp] theorem State.raise_transportDraws (r : FaultReason) (w : Word) (s : State) : (s.raise r w).transportDraws = s.transportDraws := rfl
@[simp] theorem State.raise_busIn (r : FaultReason) (w : Word) (s : State) : (s.raise r w).busIn = s.busIn := rfl

/-! ## putPixel -/

@[simp] theorem State.putPixel_phase (p : Pixel) (on : Bool) (s : State) : (s.putPixel p on).phase = s.phase := rfl
@[simp] theorem State.putPixel_cfgInv (p : Pixel) (on : Bool) (s : State) : (s.putPixel p on).cfgInv = s.cfgInv := rfl
@[simp] theorem State.putPixel_cfgContrast (p : Pixel) (on : Bool) (s : State) : (s.putPixel p on).cfgContrast = s.cfgContrast := rfl
@[simp] theorem State.putPixel_fb (p : Pixel) (on : Bool) (s : State) : (s.putPixel p on).fb = fbWrite s.fb p.addr (putBit (fbRead s.fb p.addr) p.bit on) := rfl
@[simp] theorem State.putPixel_dEmpty (p : Pixel) (on : Bool) (s : State) : (s.putPixel p on).dEmpty = s.dEmpty := rfl
@[simp] theorem State.putPixel_dBmin (p : Pixel) (on : Bool) (s : State) : (s.putPixel p on).dBmin = s.dBmin := rfl
@[simp] theorem State.putPixel_dBmax (p : Pixel) (on : Bool) (s : State) : (s.putPixel p on).dBmax = s.dBmax := rfl
@[simp] theorem State.putPixel_dCmin (p : Pixel) (on : Bool) (s : State) : (s.putPixel p on).dCmin = s.dCmin := rfl
@[simp] theorem State.putPixel_dCmax (p : Pixel) (on : Bool) (s : State) : (s.putPixel p on).dCmax = s.dCmax := rfl
@[simp] theorem State.putPixel_faultReg (p : Pixel) (on : Bool) (s : State) : (s.putPixel p on).faultReg = s.faultReg := rfl
@[simp] theorem State.putPixel_rst (p : Pixel) (on : Bool) (s : State) : (s.putPixel p on).rst = s.rst := rfl
@[simp] theorem State.putPixel_cs (p : Pixel) (on : Bool) (s : State) : (s.putPixel p on).cs = s.cs := rfl
@[simp] theorem State.putPixel_dc (p : Pixel) (on : Bool) (s : State) : (s.putPixel p on).dc = s.dc := rfl
@[simp] theorem State.putPixel_trace (p : Pixel) (on : Bool) (s : State) : (s.putPixel p on).trace = s.trace := rfl
@[simp] theorem State.putPixel_responses (p : Pixel) (on : Bool) (s : State) : (s.putPixel p on).responses = s.responses := rfl
@[simp] theorem State.putPixel_ctl (p : Pixel) (on : Bool) (s : State) : (s.putPixel p on).ctl = s.ctl := rfl
@[simp] theorem State.putPixel_requests (p : Pixel) (on : Bool) (s : State) : (s.putPixel p on).requests = s.requests := rfl
@[simp] theorem State.putPixel_answers (p : Pixel) (on : Bool) (s : State) : (s.putPixel p on).answers = s.answers := rfl
@[simp] theorem State.putPixel_transportDraws (p : Pixel) (on : Bool) (s : State) : (s.putPixel p on).transportDraws = s.transportDraws := rfl
@[simp] theorem State.putPixel_busIn (p : Pixel) (on : Bool) (s : State) : (s.putPixel p on).busIn = s.busIn := rfl

/-! ## allDirty -/

@[simp] theorem State.allDirty_phase (s : State) : (s.allDirty).phase = s.phase := rfl
@[simp] theorem State.allDirty_cfgInv (s : State) : (s.allDirty).cfgInv = s.cfgInv := rfl
@[simp] theorem State.allDirty_cfgContrast (s : State) : (s.allDirty).cfgContrast = s.cfgContrast := rfl
@[simp] theorem State.allDirty_fb (s : State) : (s.allDirty).fb = s.fb := rfl
@[simp] theorem State.allDirty_dEmpty (s : State) : (s.allDirty).dEmpty = false := rfl
@[simp] theorem State.allDirty_dBmin (s : State) : (s.allDirty).dBmin = 0 := rfl
@[simp] theorem State.allDirty_dBmax (s : State) : (s.allDirty).dBmax = 5 := rfl
@[simp] theorem State.allDirty_dCmin (s : State) : (s.allDirty).dCmin = 0 := rfl
@[simp] theorem State.allDirty_dCmax (s : State) : (s.allDirty).dCmax = 83 := rfl
@[simp] theorem State.allDirty_faultReg (s : State) : (s.allDirty).faultReg = s.faultReg := rfl
@[simp] theorem State.allDirty_rst (s : State) : (s.allDirty).rst = s.rst := rfl
@[simp] theorem State.allDirty_cs (s : State) : (s.allDirty).cs = s.cs := rfl
@[simp] theorem State.allDirty_dc (s : State) : (s.allDirty).dc = s.dc := rfl
@[simp] theorem State.allDirty_trace (s : State) : (s.allDirty).trace = s.trace := rfl
@[simp] theorem State.allDirty_responses (s : State) : (s.allDirty).responses = s.responses := rfl
@[simp] theorem State.allDirty_ctl (s : State) : (s.allDirty).ctl = s.ctl := rfl
@[simp] theorem State.allDirty_requests (s : State) : (s.allDirty).requests = s.requests := rfl
@[simp] theorem State.allDirty_answers (s : State) : (s.allDirty).answers = s.answers := rfl
@[simp] theorem State.allDirty_transportDraws (s : State) : (s.allDirty).transportDraws = s.transportDraws := rfl
@[simp] theorem State.allDirty_busIn (s : State) : (s.allDirty).busIn = s.busIn := rfl

/-! ## clearDirty -/

@[simp] theorem State.clearDirty_phase (s : State) : (s.clearDirty).phase = s.phase := rfl
@[simp] theorem State.clearDirty_cfgInv (s : State) : (s.clearDirty).cfgInv = s.cfgInv := rfl
@[simp] theorem State.clearDirty_cfgContrast (s : State) : (s.clearDirty).cfgContrast = s.cfgContrast := rfl
@[simp] theorem State.clearDirty_fb (s : State) : (s.clearDirty).fb = s.fb := rfl
@[simp] theorem State.clearDirty_dEmpty (s : State) : (s.clearDirty).dEmpty = true := rfl
@[simp] theorem State.clearDirty_dBmin (s : State) : (s.clearDirty).dBmin = s.dBmin := rfl
@[simp] theorem State.clearDirty_dBmax (s : State) : (s.clearDirty).dBmax = s.dBmax := rfl
@[simp] theorem State.clearDirty_dCmin (s : State) : (s.clearDirty).dCmin = s.dCmin := rfl
@[simp] theorem State.clearDirty_dCmax (s : State) : (s.clearDirty).dCmax = s.dCmax := rfl
@[simp] theorem State.clearDirty_faultReg (s : State) : (s.clearDirty).faultReg = s.faultReg := rfl
@[simp] theorem State.clearDirty_rst (s : State) : (s.clearDirty).rst = s.rst := rfl
@[simp] theorem State.clearDirty_cs (s : State) : (s.clearDirty).cs = s.cs := rfl
@[simp] theorem State.clearDirty_dc (s : State) : (s.clearDirty).dc = s.dc := rfl
@[simp] theorem State.clearDirty_trace (s : State) : (s.clearDirty).trace = s.trace := rfl
@[simp] theorem State.clearDirty_responses (s : State) : (s.clearDirty).responses = s.responses := rfl
@[simp] theorem State.clearDirty_ctl (s : State) : (s.clearDirty).ctl = s.ctl := rfl
@[simp] theorem State.clearDirty_requests (s : State) : (s.clearDirty).requests = s.requests := rfl
@[simp] theorem State.clearDirty_answers (s : State) : (s.clearDirty).answers = s.answers := rfl
@[simp] theorem State.clearDirty_transportDraws (s : State) : (s.clearDirty).transportDraws = s.transportDraws := rfl
@[simp] theorem State.clearDirty_busIn (s : State) : (s.clearDirty).busIn = s.busIn := rfl

/-! ## extendDirty -/

@[simp] theorem State.extendDirty_phase (p : Pixel) (s : State) : (s.extendDirty p).phase = s.phase := by
  unfold State.extendDirty; split <;> rfl
@[simp] theorem State.extendDirty_cfgInv (p : Pixel) (s : State) : (s.extendDirty p).cfgInv = s.cfgInv := by
  unfold State.extendDirty; split <;> rfl
@[simp] theorem State.extendDirty_cfgContrast (p : Pixel) (s : State) : (s.extendDirty p).cfgContrast = s.cfgContrast := by
  unfold State.extendDirty; split <;> rfl
@[simp] theorem State.extendDirty_fb (p : Pixel) (s : State) : (s.extendDirty p).fb = s.fb := by
  unfold State.extendDirty; split <;> rfl
@[simp] theorem State.extendDirty_faultReg (p : Pixel) (s : State) : (s.extendDirty p).faultReg = s.faultReg := by
  unfold State.extendDirty; split <;> rfl
@[simp] theorem State.extendDirty_rst (p : Pixel) (s : State) : (s.extendDirty p).rst = s.rst := by
  unfold State.extendDirty; split <;> rfl
@[simp] theorem State.extendDirty_cs (p : Pixel) (s : State) : (s.extendDirty p).cs = s.cs := by
  unfold State.extendDirty; split <;> rfl
@[simp] theorem State.extendDirty_dc (p : Pixel) (s : State) : (s.extendDirty p).dc = s.dc := by
  unfold State.extendDirty; split <;> rfl
@[simp] theorem State.extendDirty_trace (p : Pixel) (s : State) : (s.extendDirty p).trace = s.trace := by
  unfold State.extendDirty; split <;> rfl
@[simp] theorem State.extendDirty_responses (p : Pixel) (s : State) : (s.extendDirty p).responses = s.responses := by
  unfold State.extendDirty; split <;> rfl
@[simp] theorem State.extendDirty_ctl (p : Pixel) (s : State) : (s.extendDirty p).ctl = s.ctl := by
  unfold State.extendDirty; split <;> rfl
@[simp] theorem State.extendDirty_requests (p : Pixel) (s : State) : (s.extendDirty p).requests = s.requests := by
  unfold State.extendDirty; split <;> rfl
@[simp] theorem State.extendDirty_answers (p : Pixel) (s : State) : (s.extendDirty p).answers = s.answers := by
  unfold State.extendDirty; split <;> rfl
@[simp] theorem State.extendDirty_transportDraws (p : Pixel) (s : State) : (s.extendDirty p).transportDraws = s.transportDraws := by
  unfold State.extendDirty; split <;> rfl
@[simp] theorem State.extendDirty_busIn (p : Pixel) (s : State) : (s.extendDirty p).busIn = s.busIn := by
  unfold State.extendDirty; split <;> rfl
@[simp] theorem State.extendDirty_dEmpty (p : Pixel) (s : State) : (s.extendDirty p).dEmpty = false := by
  unfold State.extendDirty; split <;> simp_all

@[simp] theorem least_val {n : Nat} (a b : Fin n) : (least a b).val = min a.val b.val := by
  unfold least; split <;> omega

@[simp] theorem greatest_val {n : Nat} (a b : Fin n) : (greatest a b).val = max a.val b.val := by
  unfold greatest; split <;> omega

theorem State.extendDirty_dBmin (p : Pixel) (s : State) :
    (s.extendDirty p).dBmin = if s.dEmpty then p.bank else least s.dBmin p.bank := by
  unfold State.extendDirty; split <;> rfl
theorem State.extendDirty_dBmax (p : Pixel) (s : State) :
    (s.extendDirty p).dBmax = if s.dEmpty then p.bank else greatest s.dBmax p.bank := by
  unfold State.extendDirty; split <;> rfl
theorem State.extendDirty_dCmin (p : Pixel) (s : State) :
    (s.extendDirty p).dCmin = if s.dEmpty then p.col else least s.dCmin p.col := by
  unfold State.extendDirty; split <;> rfl
theorem State.extendDirty_dCmax (p : Pixel) (s : State) :
    (s.extendDirty p).dCmax = if s.dEmpty then p.col else greatest s.dCmax p.col := by
  unfold State.extendDirty; split <;> rfl

/-- The frame of `extendDirty` as one equation. -/
theorem State.extendDirty_eq (p : Pixel) (s : State) :
    s.extendDirty p = { s with
      dEmpty := false
      dBmin := (s.extendDirty p).dBmin, dBmax := (s.extendDirty p).dBmax
      dCmin := (s.extendDirty p).dCmin, dCmax := (s.extendDirty p).dCmax } := by
  unfold State.extendDirty
  by_cases h : s.dEmpty = true
  · rw [if_pos h]
  · rw [if_neg h]; simp only [Bool.not_eq_true] at h; rw [← h]

/-! ## takeAnswer -/

@[simp] theorem State.takeAnswer_phase (s : State) : s.takeAnswer.phase = s.phase := by
  unfold State.takeAnswer; split <;> rfl
@[simp] theorem State.takeAnswer_cfgInv (s : State) : s.takeAnswer.cfgInv = s.cfgInv := by
  unfold State.takeAnswer; split <;> rfl
@[simp] theorem State.takeAnswer_cfgContrast (s : State) : s.takeAnswer.cfgContrast = s.cfgContrast := by
  unfold State.takeAnswer; split <;> rfl
@[simp] theorem State.takeAnswer_fb (s : State) : s.takeAnswer.fb = s.fb := by
  unfold State.takeAnswer; split <;> rfl
@[simp] theorem State.takeAnswer_dEmpty (s : State) : s.takeAnswer.dEmpty = s.dEmpty := by
  unfold State.takeAnswer; split <;> rfl
@[simp] theorem State.takeAnswer_dBmin (s : State) : s.takeAnswer.dBmin = s.dBmin := by
  unfold State.takeAnswer; split <;> rfl
@[simp] theorem State.takeAnswer_dBmax (s : State) : s.takeAnswer.dBmax = s.dBmax := by
  unfold State.takeAnswer; split <;> rfl
@[simp] theorem State.takeAnswer_dCmin (s : State) : s.takeAnswer.dCmin = s.dCmin := by
  unfold State.takeAnswer; split <;> rfl
@[simp] theorem State.takeAnswer_dCmax (s : State) : s.takeAnswer.dCmax = s.dCmax := by
  unfold State.takeAnswer; split <;> rfl
@[simp] theorem State.takeAnswer_faultReg (s : State) : s.takeAnswer.faultReg = s.faultReg := by
  unfold State.takeAnswer; split <;> rfl
@[simp] theorem State.takeAnswer_rst (s : State) : s.takeAnswer.rst = s.rst := by
  unfold State.takeAnswer; split <;> rfl
@[simp] theorem State.takeAnswer_cs (s : State) : s.takeAnswer.cs = s.cs := by
  unfold State.takeAnswer; split <;> rfl
@[simp] theorem State.takeAnswer_dc (s : State) : s.takeAnswer.dc = s.dc := by
  unfold State.takeAnswer; split <;> rfl
@[simp] theorem State.takeAnswer_trace (s : State) : s.takeAnswer.trace = s.trace := by
  unfold State.takeAnswer; split <;> rfl
@[simp] theorem State.takeAnswer_responses (s : State) : s.takeAnswer.responses = s.responses := by
  unfold State.takeAnswer; split <;> rfl
@[simp] theorem State.takeAnswer_ctl (s : State) : s.takeAnswer.ctl = s.ctl := by
  unfold State.takeAnswer; split <;> rfl
@[simp] theorem State.takeAnswer_requests (s : State) : s.takeAnswer.requests = s.requests := by
  unfold State.takeAnswer; split <;> rfl
@[simp] theorem State.takeAnswer_busIn (s : State) : s.takeAnswer.busIn = s.busIn := by
  unfold State.takeAnswer; split <;> rfl

end Sys2Proof.Machine
end

