-- ==== Sys2Proof/Laws/Bus.lean ====
section
/-! SUPPORT. What a transaction, a pin operation and a walk over bus operations do. -/

namespace Sys2Proof.Machine

/-- `t` differs from `s` in what the bus touches alone: pins, trace, controller and the transport's answers. -/
structure BusOnly (s t : State) : Prop where
  phase : t.phase = s.phase
  cfgInv : t.cfgInv = s.cfgInv
  cfgContrast : t.cfgContrast = s.cfgContrast
  fb : t.fb = s.fb
  dEmpty : t.dEmpty = s.dEmpty
  dBmin : t.dBmin = s.dBmin
  dBmax : t.dBmax = s.dBmax
  dCmin : t.dCmin = s.dCmin
  dCmax : t.dCmax = s.dCmax
  faultReg : t.faultReg = s.faultReg
  responses : t.responses = s.responses
  requests : t.requests = s.requests
  busIn : t.busIn = s.busIn

theorem BusOnly.rfl {s : State} : BusOnly s s := by constructor <;> exact Eq.refl _

theorem BusOnly.trans {s t u : State} (h : BusOnly s t) (h' : BusOnly t u) : BusOnly s u where
  phase := h'.phase.trans h.phase
  cfgInv := h'.cfgInv.trans h.cfgInv
  cfgContrast := h'.cfgContrast.trans h.cfgContrast
  fb := h'.fb.trans h.fb
  dEmpty := h'.dEmpty.trans h.dEmpty
  dBmin := h'.dBmin.trans h.dBmin
  dBmax := h'.dBmax.trans h.dBmax
  dCmin := h'.dCmin.trans h.dCmin
  dCmax := h'.dCmax.trans h.dCmax
  faultReg := h'.faultReg.trans h.faultReg
  responses := h'.responses.trans h.responses
  requests := h'.requests.trans h.requests
  busIn := h'.busIn.trans h.busIn

/-- The frame as one equation. -/
theorem BusOnly.eq {s t : State} (h : BusOnly s t) :
    t = { s with
      rst := t.rst, cs := t.cs, dc := t.dc, trace := t.trace, ctl := t.ctl
      answers := t.answers, transportDraws := t.transportDraws } := by
  obtain ⟨h1, h2, h3, h4, h5, h6, h7, h8, h9, h10, h11, h12, h13⟩ := h
  cases t; cases s; simp_all

/-! ## One bus event -/

theorem txn_result (dc : BusMode) (bytes : List Byte) (s : State) : (txn dc bytes s).1 = verdict (nextAnswer s) := rfl

/-- All that a transaction does (R101). -/
theorem txn_state (dc : BusMode) (bytes : List Byte) (s : State) :
    (txn dc bytes s).2 = { s.takeAnswer with
      cs := .high
      dc := BusMode.level dc
      ctl := s.ctl.deliver (BusMode.level dc) (bytes.take (delivered bytes.length (nextAnswer s)))
      trace := s.trace ++ [.txn dc bytes (verdict (nextAnswer s))] } := by
  unfold txn transmit State.takeAnswer nextAnswer
  cases s.answers <;> simp

theorem pinSet_result (l : Level) (s : State) : (pinSet l s).1 = verdict (nextAnswer s) := by
  unfold pinSet; cases nextAnswer s <;> rfl

/-- All that an accepted pin operation does (R104). -/
theorem pinSet_ok {l : Level} {s : State} (h : nextAnswer s = .ok) :
    (pinSet l s).2 = { s.takeAnswer with
      rst := l
      ctl := if s.rst = .low ∧ l = .high then s.ctl.unspecified else s.ctl
      trace := s.trace ++ [.rst l .ok] } := by
  simp [pinSet, h]

/-- All that a failed pin operation does (R104). -/
theorem pinSet_err {l : Level} {s : State} {k : Nat} (h : nextAnswer s = .err k) :
    (pinSet l s).2 = { s.takeAnswer with
      rst := Config.freeRst s.takeAnswer.transportDraws
      ctl := s.ctl.unspecified
      transportDraws := s.takeAnswer.transportDraws + 1
      trace := s.trace ++ [.rst l .err] } := by
  simp [pinSet, h]

theorem runOp_result (op : BusOp) (s : State) : (runOp op s).1 = verdict (nextAnswer s) := by
  cases op
  · exact pinSet_result _ s
  · rfl

theorem runOp_busOnly (op : BusOp) (s : State) : BusOnly s (runOp op s).2 := by
  cases op with
  | pin l => cases h : nextAnswer s <;> constructor <;> simp [runOp, pinSet, h]
  | txn dc bytes =>
    show BusOnly s (txn dc bytes s).2
    rw [txn_state]
    constructor <;> simp

theorem runOp_trace (op : BusOp) (s : State) :
    (runOp op s).2.trace = s.trace ++ [op.event (verdict (nextAnswer s))] := by
  cases op with
  | pin l =>
    cases h : nextAnswer s <;> simp [runOp, pinSet, h, BusOp.event, verdict]
  | txn dc bytes => show (txn dc bytes s).2.trace = _; rw [txn_state]; rfl

/-- The answers left: one fewer, while any was supplied. -/
theorem runOp_answers {a : Answer} {rest : List Answer} (op : BusOp) {s : State} (h : s.answers = a :: rest) :
    (runOp op s).2.answers = rest := by
  cases op with
  | pin l => cases h' : nextAnswer s <;> simp [runOp, pinSet, h', State.takeAnswer, h]
  | txn dc bytes => show (txn dc bytes s).2.answers = _; rw [txn_state]; simp [State.takeAnswer, h]

theorem nextAnswer_cons {a : Answer} {rest : List Answer} {s : State} (h : s.answers = a :: rest) : nextAnswer s = a := by
  simp [nextAnswer, h]

theorem runOp_cs (op : BusOp) {s : State} (h : s.cs = .high) : (runOp op s).2.cs = .high := by
  cases op with
  | pin l => cases h' : nextAnswer s <;> simp [runOp, pinSet, h', h]
  | txn dc bytes => show (txn dc bytes s).2.cs = _; rw [txn_state]

/-! ## A walk over bus operations -/

@[simp] theorem runOps_nil (s : State) : runOps [] s = (.ok, s) := rfl

theorem runOps_cons_ok {op : BusOp} {ops : List BusOp} {s : State} (h : (runOp op s).1 = .ok) :
    runOps (op :: ops) s = runOps ops (runOp op s).2 := by
  generalize hp : runOp op s = p at *
  obtain ⟨r, t⟩ := p
  simp only at h; subst h
  simp [runOps, hp]

theorem runOps_cons_err {op : BusOp} {ops : List BusOp} {s : State} (h : (runOp op s).1 = .err) :
    runOps (op :: ops) s = (.err, (runOp op s).2) := by
  generalize hp : runOp op s = p at *
  obtain ⟨r, t⟩ := p
  simp only at h; subst h
  simp [runOps, hp]

theorem runOps_append (ops ops' : List BusOp) (s : State) :
    runOps (ops ++ ops') s =
      match runOps ops s with
      | (.ok, t) => runOps ops' t
      | (.err, t) => (.err, t) := by
  induction ops generalizing s with
  | nil => rfl
  | cons op rest ih =>
    cases h : (runOp op s).1 with
    | ok => rw [List.cons_append, runOps_cons_ok h, runOps_cons_ok h, ih]
    | err => rw [List.cons_append, runOps_cons_err h, runOps_cons_err h]

/-- What one operation keeps, a walk keeps. -/
theorem runOps_keeps {P : State → Prop} {ops : List BusOp} (step : ∀ op ∈ ops, ∀ s, P s → P (runOp op s).2) {s : State}
    (h : P s) : P (runOps ops s).2 := by
  induction ops generalizing s with
  | nil => exact h
  | cons op rest ih =>
    have h1 := step op List.mem_cons_self s h
    cases hr : (runOp op s).1 with
    | ok => rw [runOps_cons_ok hr]; exact ih (fun op' hm => step op' (List.mem_cons_of_mem _ hm)) h1
    | err => rw [runOps_cons_err hr]; exact h1

theorem runOps_busOnly (ops : List BusOp) (s : State) : BusOnly s (runOps ops s).2 :=
  runOps_keeps (P := BusOnly s) (fun op _ t h => h.trans (runOp_busOnly op t)) .rfl

/-- No bus operation clears the refusal mark (R230). -/
theorem runOp_refusal (op : BusOp) {s : State} (h : s.ctl.refusal = true) : (runOp op s).2.ctl.refusal = true := by
  cases op with
  | pin l =>
    cases ha : nextAnswer s with
    | ok =>
      show (pinSet l s).2.ctl.refusal = _
      rw [pinSet_ok ha]
      by_cases hp : s.rst = .low ∧ l = .high <;> simp [hp, h]
    | err k => show (pinSet l s).2.ctl.refusal = _; rw [pinSet_err ha]; exact h
  | txn dc bytes => show (txn dc bytes s).2.ctl.refusal = _; rw [txn_state]; exact Ctl.deliver_refusal _ _ h

theorem runOps_refusal {ops : List BusOp} {s : State} (h : s.ctl.refusal = true) : (runOps ops s).2.ctl.refusal = true :=
  runOps_keeps (P := fun s => s.ctl.refusal = true) (fun op _ _ h => runOp_refusal op h) h

theorem runOps_cs {ops : List BusOp} {s : State} (h : s.cs = .high) : (runOps ops s).2.cs = .high :=
  runOps_keeps (P := fun s => s.cs = .high) (fun op _ _ h => runOp_cs op h) h

@[simp] theorem BusOp.event_verdict (r : TransportResult) (op : BusOp) : (op.event r).verdict = r := by cases op <;> rfl

/-- The trace of a walk: the events in order, all accepted, or accepted up to the first one refused (R243). -/
theorem runOps_trace (ops : List BusOp) (s : State) :
    ((runOps ops s).1 = .ok ∧ (runOps ops s).2.trace = s.trace ++ ops.map (BusOp.event .ok)) ∨
    (∃ pre op post, ops = pre ++ op :: post ∧ (runOps ops s).1 = .err ∧
      (runOps ops s).2.trace = s.trace ++ pre.map (BusOp.event .ok) ++ [op.event .err]) := by
  induction ops generalizing s with
  | nil => left; simp
  | cons op rest ih =>
    have ht := runOp_trace op s
    rw [← runOp_result op s] at ht
    cases hr : (runOp op s).1 with
    | ok =>
      rw [hr] at ht
      rw [runOps_cons_ok hr]
      rcases ih (runOp op s).2 with ⟨h1, h2⟩ | ⟨pre, op', post, h0, h1, h2⟩
      · left; refine ⟨h1, ?_⟩; rw [h2, ht]; simp
      · right
        refine ⟨op :: pre, op', post, by rw [h0]; rfl, h1, ?_⟩
        rw [h2, ht]; simp
    | err =>
      rw [hr] at ht
      rw [runOps_cons_err hr]
      right; exact ⟨[], op, rest, rfl, rfl, by simpa using ht⟩

/-- With an Ok supplied for each event, every event is accepted. -/
theorem runOps_all_ok {ops : List BusOp} {s : State} {rest : List Answer}
    (h : s.answers = List.replicate ops.length .ok ++ rest) :
    (runOps ops s).1 = .ok ∧ (runOps ops s).2.answers = rest := by
  induction ops generalizing s with
  | nil => simpa using h
  | cons op tl ih =>
    rw [List.length_cons, List.replicate_succ, List.cons_append] at h
    have hr : (runOp op s).1 = .ok := by rw [runOp_result, nextAnswer_cons h]; rfl
    rw [runOps_cons_ok hr]
    exact ih (runOp_answers op h)

/-- With an Ok supplied for each event, no free transport value is drawn. -/
theorem runOps_all_ok_draws {ops : List BusOp} {s : State} {rest : List Answer}
    (h : s.answers = List.replicate ops.length .ok ++ rest) : (runOps ops s).2.transportDraws = s.transportDraws := by
  induction ops generalizing s with
  | nil => rfl
  | cons op tl ih =>
    rw [List.length_cons, List.replicate_succ, List.cons_append] at h
    have hr : (runOp op s).1 = .ok := by rw [runOp_result, nextAnswer_cons h]; rfl
    rw [runOps_cons_ok hr, ih (runOp_answers op h)]
    cases op with
    | pin l =>
      show (pinSet l s).2.transportDraws = _
      rw [pinSet_ok (nextAnswer_cons h)]; simp [State.takeAnswer, h]
    | txn dc bytes =>
      show (txn dc bytes s).2.transportDraws = _
      rw [txn_state]; simp [State.takeAnswer, h]

/-- A walk that ends in a transaction and is accepted leaves chip-select deasserted and `DC` at that transaction's level. -/
theorem runOps_last_txn {ops : List BusOp} {dc : BusMode} {bytes : List Byte} {s : State}
    (h : (runOps (ops ++ [.txn dc bytes]) s).1 = .ok) :
    (runOps (ops ++ [.txn dc bytes]) s).2.cs = .high ∧ (runOps (ops ++ [.txn dc bytes]) s).2.dc = BusMode.level dc := by
  rw [runOps_append] at h ⊢
  generalize runOps ops s = p at *
  obtain ⟨r, t⟩ := p
  cases r with
  | err => cases h
  | ok =>
    have hst : ∀ q, runOps [.txn dc bytes] t = q → q.2 = (txn dc bytes t).2 := by
      intro q hq
      cases hr : (runOp (.txn dc bytes) t).1 with
      | ok => rw [runOps_cons_ok hr] at hq; rw [← hq]; rfl
      | err => rw [runOps_cons_err hr] at hq; rw [← hq]; rfl
    show (runOps [.txn dc bytes] t).2.cs = _ ∧ (runOps [.txn dc bytes] t).2.dc = _
    rw [hst _ rfl, txn_state]
    exact ⟨rfl, rfl⟩

/-- With `k` Oks and then an Err supplied, the walk ends at event `k`. -/
theorem runOps_err_at {ops : List BusOp} {s : State} {rest : List Answer} {k j : Nat} (hk : k < ops.length)
    (h : s.answers = List.replicate k .ok ++ .err j :: rest) :
    (runOps ops s).1 = .err ∧ (runOps ops s).2.answers = rest ∧
      (runOps ops s).2.trace = s.trace ++ (ops.take k).map (BusOp.event .ok) ++ [ops[k].event .err] := by
  induction ops generalizing s k with
  | nil => simp at hk
  | cons op tl ih =>
    cases k with
    | zero =>
      simp only [List.replicate_zero, List.nil_append] at h
      have hr : (runOp op s).1 = .err := by rw [runOp_result, nextAnswer_cons h]; rfl
      rw [runOps_cons_err hr]
      refine ⟨rfl, runOp_answers op h, ?_⟩
      rw [runOp_trace, nextAnswer_cons h]; simp [verdict]
    | succ k =>
      rw [List.replicate_succ, List.cons_append] at h
      have hr : (runOp op s).1 = .ok := by rw [runOp_result, nextAnswer_cons h]; rfl
      rw [runOps_cons_ok hr]
      obtain ⟨h1, h2, h3⟩ := ih (by simpa using hk) (runOp_answers op h)
      refine ⟨h1, h2, ?_⟩
      rw [h3, runOp_trace, nextAnswer_cons h]; simp [verdict]

end Sys2Proof.Machine
end

