-- ==== Sys2Proof/Laws/Decode.lean ====
section
/-! SUPPORT. The shape of what decoding answers. -/

namespace Sys2Proof

/-! ## Bits as numbers -/

/-- Joining bit vectors is positional notation. -/
theorem toNat_append_add {v w : Nat} (x : BitVec v) (y : BitVec w) : (x ++ y).toNat = x.toNat * 2 ^ w + y.toNat := by
  rw [BitVec.toNat_append, Nat.shiftLeft_eq, Nat.mul_comm, ← Nat.two_pow_add_eq_or_of_lt y.isLt, Nat.mul_comm]

theorem getLsbD_eq_div {w : Nat} (x : BitVec w) (k : Nat) : x.getLsbD k = decide (x.toNat / 2 ^ k % 2 = 1) := by
  rw [BitVec.getLsbD, Nat.testBit_eq_decide_div_mod_eq]

theorem ofBool_toNat (b : Bool) : (BitVec.ofBool b).toNat = if b then 1 else 0 := by cases b <;> rfl

theorem extractLsb'_toNat_div {w : Nat} (x : BitVec w) (s l : Nat) : (x.extractLsb' s l).toNat = x.toNat / 2 ^ s % 2 ^ l := by
  simp [BitVec.extractLsb'_toNat, Nat.shiftRight_eq_div_pow]

/-! ## The shape of an answer -/

/-- A request word decodes to a request or is illegal under its own name. -/
theorem decodeRequest_shape (w : Word) :
    (∃ i, decodeRequest w = .instr i ∧ i.isRequest = true) ∨ decodeRequest w = .illegalRequest w := by
  unfold decodeRequest
  repeat' split
  all_goals first | exact .inr rfl | exact .inl ⟨_, rfl, rfl⟩

/-- A command byte decodes to a command or is reserved under its own name. -/
theorem decodeCommand_shape (h : Bool) (b : Byte) :
    (∃ i, decodeCommand h b = .instr i ∧ i.isRequest = false) ∨ decodeCommand h b = .reservedByte b := by
  unfold decodeCommand
  repeat' split
  all_goals first | exact .inr rfl | exact .inl ⟨_, rfl, rfl⟩

/-- What a byte on the bus decodes to. -/
theorem decode_byte_shape (h : Bool) (dc : Level) (b : Byte) :
    (∃ i, decode h (Machine.byteCode dc b) = .instr i ∧ i.isRequest = false) ∨
      decode h (Machine.byteCode dc b) = .reservedByte b := by
  cases dc with
  | low => exact decodeCommand_shape h b
  | high => exact .inl ⟨_, rfl, rfl⟩

/-- Coordinates a field gives fit the field (R73). -/
theorem coordFits_toInt (v : BitVec 12) : coordFits v.toInt = true := by
  have h1 := BitVec.le_toInt v
  have h2 := BitVec.toInt_lt (x := v)
  simp only [coordFits, decide_eq_true_eq]
  constructor <;> simp at * <;> omega

/-- A coordinate that fits its field is read back from it (R73). -/
theorem toInt_coordBits {c : Int} (h : coordFits c = true) : (coordBits c).toInt = c := by
  simp only [coordFits, decide_eq_true_eq] at h
  unfold coordBits
  rw [BitVec.toInt_ofInt]
  exact Int.bmod_eq_of_le (by simp; omega) (by simp; omega)

theorem coordBits_toInt (v : BitVec 12) : coordBits v.toInt = v := by
  unfold coordBits; exact BitVec.ofInt_toInt

end Sys2Proof
end

