-- ==== Sys2Proof/Laws/HostAsm.lean ====
section
/-! SUPPORT. Which points the pseudo-requests set (R94). -/

namespace Sys2Proof.Machine

theorem mem_ints {lo hi x : Int} : x ∈ ints lo hi ↔ lo ≤ x ∧ x ≤ hi := by
  simp only [ints, List.mem_map, List.mem_range]
  constructor
  · rintro ⟨k, h, rfl⟩; omega
  · rintro ⟨h1, h2⟩; exact ⟨(x - lo).toNat, by omega, by omega⟩

/-- FILLRECT's points. -/
theorem mem_rectPoints {x0 y0 x1 y1 x y : Int} :
    (x, y) ∈ rectPoints x0 y0 x1 y1 ↔ (x0 ≤ x ∧ x ≤ x1) ∧ (y0 ≤ y ∧ y ≤ y1) := by
  simp only [rectPoints, List.mem_flatMap, List.mem_map, mem_ints, Prod.mk.injEq]
  constructor
  · rintro ⟨y', hy, x', hx, rfl, rfl⟩; exact ⟨hx, hy⟩
  · rintro ⟨hx, hy⟩; exact ⟨y, hy, x, hx, rfl, rfl⟩

/-- RECT's points are exactly R94's set. -/
theorem mem_edgePoints {x0 y0 x1 y1 x y : Int} : (x, y) ∈ edgePoints x0 y0 x1 y1 ↔ onEdge x0 y0 x1 y1 x y := by
  simp only [edgePoints, List.mem_filter, mem_rectPoints, decide_eq_true_eq]
  refine ⟨fun h => h.2, fun h => ⟨?_, h⟩⟩
  unfold onEdge at h
  omega

end Sys2Proof.Machine
end

