-- ==== Sys2Proof/Laws/PerInstr.lean ====
section
/-! SUPPORT. The families of statements made once per instruction: `RowMatch`, that each instruction's code is one the match and
mask of its row in spec/opcode_table.json select. -/

namespace Sys2Proof.Laws.RowMatch

/-- A request word selected by a row's match and mask (R72). -/
def request (c : Code) (row mask : Word) : Prop := ∃ w, c = .request w ∧ w &&& mask = row

/-- A command byte selected by a row's match and mask (R80). -/
def command (c : Code) (row mask : Byte) : Prop := ∃ b, c = .command b ∧ b &&& mask = row

/-- The code of an instruction lies in its row (R72, R80, R82). -/
def Statement (i : Instr) : Prop :=
  match i with
  | .init _ _ => request (encode i) 0x10000000#32 0xFFFFFE80#32
  | .setPixel _ _ _ => request (encode i) 0x20000000#32 0xFE000000#32
  | .clear => request (encode i) 0x30000000#32 0xFFFFFFFF#32
  | .readPixel _ _ => request (encode i) 0x40000000#32 0xFF000000#32
  | .flush => request (encode i) 0x50000000#32 0xFFFFFFFF#32
  | .nop => command (encode i) 0x00#8 0xFF#8
  | .functionSet _ _ _ => command (encode i) 0x20#8 0xF8#8
  | .displayControl _ _ => command (encode i) 0x08#8 0xFA#8
  | .setY _ => command (encode i) 0x40#8 0xF8#8
  | .setX _ => command (encode i) 0x80#8 0x80#8
  | .tempControl _ => command (encode i) 0x04#8 0xFC#8
  | .setBias _ => command (encode i) 0x10#8 0xF8#8
  | .setVop _ => command (encode i) 0x80#8 0x80#8
  | .data _ => ∃ b, encode i = .data b

theorem init (inv : Bool) (contrast : BitVec 7) : Statement (.init inv contrast) :=
  ⟨_, rfl, by revert inv contrast; decide⟩

theorem setPixel (x y : Int) (on : Bool) : Statement (.setPixel x y on) := by
  refine ⟨_, rfl, ?_⟩
  apply BitVec.eq_of_getLsbD_eq
  intro i hi
  simp only [BitVec.getLsbD_and, BitVec.getLsbD_append]
  interval_cases i <;> simp

theorem clear : Statement .clear := ⟨_, rfl, rfl⟩

theorem readPixel (x y : Int) : Statement (.readPixel x y) := by
  refine ⟨_, rfl, ?_⟩
  apply BitVec.eq_of_getLsbD_eq
  intro i hi
  simp only [BitVec.getLsbD_and, BitVec.getLsbD_append]
  interval_cases i <;> simp

theorem flush : Statement .flush := ⟨_, rfl, rfl⟩

theorem nop : Statement .nop := ⟨_, rfl, rfl⟩

theorem functionSet (pd v h : Bool) : Statement (.functionSet pd v h) := ⟨_, rfl, by revert pd v h; decide⟩

theorem displayControl (d e : Bool) : Statement (.displayControl d e) := ⟨_, rfl, by revert d e; decide⟩

theorem setY (y : BitVec 3) : Statement (.setY y) := ⟨_, rfl, by revert y; decide⟩

theorem setX (x : BitVec 7) : Statement (.setX x) := ⟨_, rfl, by revert x; decide⟩

theorem tempControl (tc : BitVec 2) : Statement (.tempControl tc) := ⟨_, rfl, by revert tc; decide⟩

theorem setBias (bs : BitVec 3) : Statement (.setBias bs) := ⟨_, rfl, by revert bs; decide⟩

theorem setVop (vop : BitVec 7) : Statement (.setVop vop) := ⟨_, rfl, by revert vop; decide⟩

theorem data (v : Byte) : Statement (.data v) := ⟨_, rfl⟩

end Sys2Proof.Laws.RowMatch
end

