-- ==== Sys2Proof/Laws/Walk.lean ====
section
/-! SUPPORT. What the bus walks of INIT and FLUSH leave in the controller. -/

namespace Sys2Proof.Machine

/-- To know something of a walk, know it of its first event refused and of the rest after it accepted. -/
theorem runOps_cases {Q : TransportResult × State → Prop} {op : BusOp} {ops : List BusOp} {s : State}
    (herr : (runOp op s).1 = .err → Q (.err, (runOp op s).2))
    (hok : (runOp op s).1 = .ok → Q (runOps ops (runOp op s).2)) : Q (runOps (op :: ops) s) := by
  cases h : (runOp op s).1 with
  | ok => rw [runOps_cons_ok h]; exact hok h
  | err => rw [runOps_cons_err h]; exact herr h

/-! ## INIT -/

/-- A one-byte command transaction: the byte arrives if it is accepted, and arrives or not if it is refused. -/
theorem command1_ctl (b : Byte) (s : State) :
    ((runOp (.txn .command [b]) s).1 = .ok → (runOp (.txn .command [b]) s).2.ctl = s.ctl.receive .low b) ∧
    ((runOp (.txn .command [b]) s).2.ctl = s.ctl.receive .low b ∨ (runOp (.txn .command [b]) s).2.ctl = s.ctl) := by
  show ((txn .command [b] s).1 = .ok → (txn .command [b] s).2.ctl = _) ∧
    ((txn .command [b] s).2.ctl = _ ∨ (txn .command [b] s).2.ctl = _)
  rw [txn_result, txn_state]
  cases h : nextAnswer s with
  | ok => simp [delivered, BusMode.level]
  | err k => cases k <;> simp [delivered, verdict, BusMode.level]

theorem txn_rst (dc : BusMode) (bytes : List Byte) (s : State) : (runOp (.txn dc bytes) s).2.rst = s.rst := by
  show (txn dc bytes s).2.rst = _; rw [txn_state]; simp

theorem txn_dc (dc : BusMode) (bytes : List Byte) (s : State) : (runOp (.txn dc bytes) s).2.dc = BusMode.level dc := by
  show (txn dc bytes s).2.dc = _; rw [txn_state]

theorem pin_ctl (l : Level) (s : State) :
    (runOp (.pin l) s).2.ctl = s.ctl ∨ (runOp (.pin l) s).2.ctl = s.ctl.unspecified := by
  cases h : nextAnswer s with
  | ok =>
    show (pinSet l s).2.ctl = _ ∨ (pinSet l s).2.ctl = _
    rw [pinSet_ok h]; by_cases hp : s.rst = .low ∧ l = .high <;> simp [hp]
  | err k => right; show (pinSet l s).2.ctl = _; rw [pinSet_err h]

theorem pin_rst {l : Level} {s : State} (h : (runOp (.pin l) s).1 = .ok) : (runOp (.pin l) s).2.rst = l := by
  rw [runOp_result] at h
  cases h' : nextAnswer s with
  | ok => show (pinSet l s).2.rst = _; rw [pinSet_ok h']
  | err k => rw [h'] at h; simp [verdict] at h

/-- What the controller keeps of an INIT, however it ends: its refusal mark `m`, and, where `w` was enough for it, the canonical
form of its display RAM. -/
def Ctl.Sound (m : Bool) (w : Prop) (c : Ctl) : Prop := c.refusal = m ∧ (w → c.ram.ramWf)

theorem Ctl.Sound.unspecified {m : Bool} {w : Prop} {c : Ctl} (h : c.Sound m w) : c.unspecified.Sound m w :=
  ⟨h.1, fun _ => Memory.nil_ramWf⟩

theorem pin_sound {m : Bool} {w : Prop} {s : State} (l : Level) (h : s.ctl.Sound m w) : (runOp (.pin l) s).2.ctl.Sound m w := by
  rcases pin_ctl l s with h' | h' <;> rw [h']
  · exact h
  · exact h.unspecified

/-- What a walk of INIT leaves: the mark and the canonical form are kept; when it ends OK, the controller is in the known
addressable state (R225), the reset line is released and `DC` is at command. -/
def InitLeaves (m : Bool) (w : Prop) (inv : Bool) (contrast : BitVec 7) (p : TransportResult × State) : Prop :=
  p.2.ctl.Sound m w ∧ (p.1 = .ok → Known p.2.ctl inv contrast ∧ p.2.rst = .high ∧ p.2.dc = .low)

/-- One command of the walk. -/
theorem InitLeaves.command {m : Bool} {w : Prop} {inv : Bool} {contrast : BitVec 7} {b : Byte} {ops : List BusOp} {s : State}
    (hs : s.ctl.Sound m w) (hb : (s.ctl.receive .low b).Sound m w)
    (next : ∀ t : State, t.ctl = s.ctl.receive .low b → t.rst = s.rst → t.dc = .low → InitLeaves m w inv contrast (runOps ops t)) :
    InitLeaves m w inv contrast (runOps (.txn .command [b] :: ops) s) := by
  obtain ⟨hc, hd⟩ := command1_ctl b s
  refine runOps_cases (fun _ => ⟨?_, by simp⟩) (fun hok => next _ (hc hok) (txn_rst ..) (txn_dc ..))
  rcases hd with h | h <;> rw [h] <;> assumption

/-- The whole walk of INIT. -/
theorem initOps_walk (inv : Bool) (contrast : BitVec 7) (m : Bool) (w : Prop) (s : State) (hs : s.ctl.Sound m w) :
    InitLeaves m w inv contrast (runOps (initOps inv contrast) s) := by
  refine runOps_cases (fun _ => ⟨pin_sound _ hs, by simp⟩) (fun _ => ?_)
  have hs1 := pin_sound .low hs
  refine runOps_cases (fun _ => ⟨pin_sound _ hs1, by simp⟩) (fun hok => ?_)
  have hs2 := pin_sound .high hs1
  have hr2 := pin_rst hok
  generalize (runOp (.pin .high) (runOp (.pin .low) s).2).2 = s2 at hs2 hr2
  refine .command hs2 (by rw [Ctl.receive_cmdFsetExt]; exact hs2) fun s3 c3 r3 _ => ?_
  rw [Ctl.receive_cmdFsetExt] at c3
  have hs3 : s3.ctl.Sound m w := by rw [c3]; exact hs2
  have e3 := Ctl.receive_cmdBias (c := s3.ctl) (by rw [c3])
  refine .command hs3 (by rw [e3]; exact hs3) fun s4 c4 r4 _ => ?_
  rw [e3] at c4
  have hs4 : s4.ctl.Sound m w := by rw [c4]; exact hs3
  have e4 := Ctl.receive_cmdVop (c := s4.ctl) (by rw [c4, c3]) contrast
  refine .command hs4 (by rw [e4]; exact hs4) fun s5 c5 r5 _ => ?_
  rw [e4] at c5
  have hs5 : s5.ctl.Sound m w := by rw [c5]; exact hs4
  refine .command hs5 (by rw [Ctl.receive_cmdFsetBasic]; exact hs5) fun s6 c6 r6 _ => ?_
  rw [Ctl.receive_cmdFsetBasic] at c6
  have hs6 : s6.ctl.Sound m w := by rw [c6]; exact hs5
  have e6 := Ctl.receive_cmdDctl (c := s6.ctl) (by rw [c6]) inv
  refine .command hs6 (by rw [e6]; exact hs6) fun s7 c7 r7 d7 => ?_
  rw [e6] at c7
  refine ⟨by rw [runOps_nil, c7]; exact hs6, fun _ => ⟨?_, ?_, d7⟩⟩
  · simp [Known, c7, c6, c5, c4, c3]
  · simp [r7, r6, r5, r4, r3, hr2]

/-! ## FLUSH -/

theorem ascending_mem {lo hi n : Nat} : n ∈ ascending lo hi ↔ lo ≤ n ∧ n ≤ hi := by
  unfold ascending; rw [List.mem_range'_1]; omega

theorem ascending_length (lo hi : Nat) : (ascending lo hi).length = hi + 1 - lo := by
  unfold ascending; simp

theorem bankBytes_length (s : State) (b : Nat) : (bankBytes s b).length = s.dCmax.val + 1 - s.dCmin.val := by
  unfold bankBytes; simp [ascending_length]

theorem bankBytes_getD (s : State) (b j : Nat) (h : j < s.dCmax.val + 1 - s.dCmin.val) :
    (bankBytes s b).getD j 0#8 = fbRead s.fb (cellAddr b (s.dCmin.val + j)) := by
  have hl : j < (bankBytes s b).length := by rw [bankBytes_length]; exact h
  rw [List.getD_eq_getElem?_getD, List.getElem?_eq_getElem hl]
  simp [bankBytes, ascending]

/-- The addresses of a bank's dirty columns. -/
def InBank (s0 : State) (b : Nat) (a : Nat) : Prop :=
  cellAddr b s0.dCmin.val ≤ a ∧ a ≤ cellAddr b s0.dCmax.val

/-- What a walk over one bank leaves in the controller that was `c` (R171, R176): settings and canonical form kept; every display
RAM byte as before, or a dirty byte of this bank now equal to the framebuffer's; and when the walk ends OK, exactly the
bank's dirty bytes are written. -/
structure BankLeaves (s0 : State) (b : Nat) (c : Ctl) (p : TransportResult × State) : Prop where
  same : c.SameSettings p.2.ctl
  ramWf : c.ram.ramWf → p.2.ctl.ram.ramWf
  some_written : ∀ a, p.2.ctl.ramRead a = c.ramRead a ∨ (InBank s0 b a ∧ p.2.ctl.ramRead a = fbRead s0.fb a)
  all_written : p.1 = .ok → ∀ a, (InBank s0 b a → p.2.ctl.ramRead a = fbRead s0.fb a) ∧
    (¬ InBank s0 b a → p.2.ctl.ramRead a = c.ramRead a)

/-- The address pair (R173): it moves the counters alone. -/
theorem addressPair_ctl (s0 s : State) (b : Fin 6) (hh : s.ctl.h = false) (k : Nat) :
    (∃ x y, s.ctl.deliver .low ([cmdSetX s0.dCmin.val, cmdSetY b.val].take k) = { s.ctl with x := x, y := y }) ∧
    (2 ≤ k → s.ctl.deliver .low ([cmdSetX s0.dCmin.val, cmdSetY b.val].take k) = { s.ctl with x := s0.dCmin, y := b }) := by
  have hx : s.ctl.receive .low (cmdSetX s0.dCmin.val) = { s.ctl with x := s0.dCmin } := Ctl.receive_cmdSetX hh s0.dCmin
  have hy := Ctl.receive_cmdSetY (c := { s.ctl with x := s0.dCmin }) hh b
  match k with
  | 0 => exact ⟨⟨s.ctl.x, s.ctl.y, rfl⟩, by omega⟩
  | 1 => exact ⟨⟨s0.dCmin, s.ctl.y, by simp [hx]⟩, by omega⟩
  | k + 2 => exact ⟨⟨s0.dCmin, b, by simp [hx, hy]⟩, fun _ => by simp [hx, hy]⟩

/-- A prefix of a bank's bytes, delivered from the bank's first dirty column (R173). -/
theorem bankBytes_deliver (s0 : State) (b : Fin 6) (c : Ctl) (hx : c.x = s0.dCmin) (hy : c.y = b) (k : Nat) :
    c.SameSettings (c.deliver .high ((bankBytes s0 b.val).take k)) ∧
      ∀ a, (c.deliver .high ((bankBytes s0 b.val).take k)).ramRead a =
        if cellAddr b.val s0.dCmin.val ≤ a ∧ a < cellAddr b.val s0.dCmin.val + min k (s0.dCmax.val + 1 - s0.dCmin.val)
        then fbRead s0.fb a else c.ramRead a := by
  have hlen := bankBytes_length s0 b.val
  have hl : c.x.val + ((bankBytes s0 b.val).take k).length ≤ 84 := by
    rw [hx, List.length_take, hlen]; have := s0.dCmax.isLt; omega
  obtain ⟨h1, h2⟩ := Ctl.deliver_data ((bankBytes s0 b.val).take k) c hl
  refine ⟨h1, fun a => ?_⟩
  have hda : c.dataAddr = cellAddr b.val s0.dCmin.val := by unfold Ctl.dataAddr; rw [hx, hy]
  rw [h2 a, hda, List.length_take, hlen]
  split
  · have hj : a - cellAddr b.val s0.dCmin.val < s0.dCmax.val + 1 - s0.dCmin.val := by omega
    have haddr : cellAddr b.val (s0.dCmin.val + (a - cellAddr b.val s0.dCmin.val)) = a := by unfold cellAddr at *; omega
    have hb := bankBytes_getD s0 b.val _ hj
    rw [haddr] at hb
    rw [← hb, List.getD_eq_getElem?_getD, List.getD_eq_getElem?_getD, List.getElem?_take_of_lt (by omega)]
  · rfl

/-- Every operation of a FLUSH is a transaction: an address pair, or a bank's bytes. -/
theorem flushOps_mem {s : State} {op : BusOp} (h : op ∈ flushOps s) :
    ∃ b, s.dBmin.val ≤ b ∧ b ≤ s.dBmax.val ∧
      (op = .txn .command [cmdSetX s.dCmin.val, cmdSetY b] ∨ op = .txn .data (bankBytes s b)) := by
  obtain ⟨b, hb, hop⟩ := List.mem_flatMap.1 h
  exact ⟨b, (ascending_mem.1 hb).1, (ascending_mem.1 hb).2, by simpa [bankOps] using hop⟩

/-- A FLUSH does not move the reset line. -/
theorem flushOps_rst (s : State) : (runOps (flushOps s) s).2.rst = s.rst := by
  refine runOps_keeps (P := fun t => t.rst = s.rst) (fun op hop t ht => ?_) rfl
  obtain ⟨b, -, -, rfl | rfl⟩ := flushOps_mem hop <;> rw [txn_rst] <;> exact ht

theorem nextAnswer_of_ok {op : BusOp} {s : State} (h : (runOp op s).1 = .ok) : nextAnswer s = .ok := by
  rw [runOp_result] at h
  cases h' : nextAnswer s with
  | ok => rfl
  | err k => rw [h'] at h; simp [verdict] at h

/-- One bank of a FLUSH, however it ends. -/
theorem bankOps_walk (s0 s : State) (b : Fin 6) (hh : s.ctl.h = false) :
    BankLeaves s0 b.val s.ctl (runOps (bankOps s0 b.val) s) := by
  refine runOps_cases (fun _ => ?_) (fun hok => ?_)
  · obtain ⟨⟨x, y, hc⟩, -⟩ := addressPair_ctl s0 s b hh (delivered 2 (nextAnswer s))
    have hc' : (runOp (.txn .command [cmdSetX s0.dCmin.val, cmdSetY b.val]) s).2.ctl = { s.ctl with x := x, y := y } := by
      rw [← hc]; show (txn .command _ s).2.ctl = _; rw [txn_state]; rfl
    constructor
    · show s.ctl.SameSettings (runOp _ s).2.ctl; rw [hc']; exact .rfl
    · show _ → (runOp _ s).2.ctl.ram.ramWf; rw [hc']; exact id
    · intro a; left; show (runOp _ s).2.ctl.ramRead a = _; rw [hc']; rfl
    · simp
  · have hctl : (runOp (.txn .command [cmdSetX s0.dCmin.val, cmdSetY b.val]) s).2.ctl =
        { s.ctl with x := s0.dCmin, y := b } := by
      show (txn .command _ s).2.ctl = _
      rw [txn_state, nextAnswer_of_ok hok]
      exact (addressPair_ctl s0 s b hh 2).2 (by omega)
    generalize (runOp (.txn .command [cmdSetX s0.dCmin.val, cmdSetY b.val]) s).2 = s1 at hctl
    have hend : cellAddr b.val s0.dCmin.val + (s0.dCmax.val + 1 - s0.dCmin.val) ≤ cellAddr b.val s0.dCmax.val + 1 ∨
        s0.dCmax.val + 1 - s0.dCmin.val = 0 := by unfold cellAddr; omega
    have hss : s.ctl.SameSettings s1.ctl := by rw [hctl]; exact .rfl
    have hrd : ∀ a, s1.ctl.ramRead a = s.ctl.ramRead a := fun a => by rw [hctl]; rfl
    have hfin : BankLeaves s0 b.val s.ctl (runOp (.txn .data (bankBytes s0 b.val)) s1) := by
      have hst : (runOp (.txn .data (bankBytes s0 b.val)) s1).2.ctl = s1.ctl.deliver .high
          ((bankBytes s0 b.val).take (delivered (bankBytes s0 b.val).length (nextAnswer s1))) := by
        show (txn .data _ s1).2.ctl = _; rw [txn_state]; rfl
      obtain ⟨h1, h2⟩ := bankBytes_deliver s0 b s1.ctl (by rw [hctl]) (by rw [hctl])
        (delivered (bankBytes s0 b.val).length (nextAnswer s1))
      rw [← hst] at h1 h2
      constructor
      · exact hss.trans h1
      · intro hram; rw [hst]; exact Ctl.deliver_data_ramWf _ (by rw [hctl]; exact hram)
      · intro a
        rw [h2 a]
        split
        · next hc => right; exact ⟨⟨hc.1, by omega⟩, rfl⟩
        · left; exact hrd a
      · intro hok' a
        rw [h2 a, nextAnswer_of_ok hok', ← hrd a]
        simp only [delivered, bankBytes_length, Nat.min_self]
        unfold InBank
        constructor
        · intro h; rw [if_pos]; unfold cellAddr at *; omega
        · intro h; rw [if_neg]; unfold cellAddr at *; omega
    refine runOps_cases (fun he => ?_) (fun ho => ?_)
    · rw [← he]; exact hfin
    · rw [runOps_nil, ← ho]; exact hfin

/-- What a walk over a list of banks leaves in the controller that was `c`. -/
structure BanksLeave (s0 : State) (bs : List Nat) (c : Ctl) (p : TransportResult × State) : Prop where
  same : c.SameSettings p.2.ctl
  ramWf : c.ram.ramWf → p.2.ctl.ram.ramWf
  some_written : ∀ a, p.2.ctl.ramRead a = c.ramRead a ∨ ((∃ b ∈ bs, InBank s0 b a) ∧ p.2.ctl.ramRead a = fbRead s0.fb a)
  all_written : p.1 = .ok → ∀ a, ((∃ b ∈ bs, InBank s0 b a) → p.2.ctl.ramRead a = fbRead s0.fb a) ∧
    (¬ (∃ b ∈ bs, InBank s0 b a) → p.2.ctl.ramRead a = c.ramRead a)

/-- The walk over a list of banks, however it ends. -/
theorem banks_walk (s0 : State) (bs : List Nat) (hbs : ∀ b ∈ bs, b < 6) (s : State) (hh : s.ctl.h = false) :
    BanksLeave s0 bs s.ctl (runOps (bs.flatMap (bankOps s0)) s) := by
  induction bs generalizing s with
  | nil => exact ⟨.rfl, id, fun _ => .inl rfl, fun _ a => ⟨by simp, fun _ => rfl⟩⟩
  | cons b rest ih =>
    have h1 := bankOps_walk s0 s ⟨b, hbs b List.mem_cons_self⟩ hh
    rw [List.flatMap_cons, runOps_append]
    generalize runOps (bankOps s0 b) s = p at h1
    obtain ⟨r, t⟩ := p
    cases r with
    | err =>
      refine ⟨h1.same, h1.ramWf, fun a => (h1.some_written a).imp id fun h => ⟨⟨b, List.mem_cons_self, h.1⟩, h.2⟩, by simp⟩
    | ok =>
      have h2 := ih (fun b' hb' => hbs b' (List.mem_cons_of_mem _ hb')) t (by have := h1.same.1; simp_all)
      show BanksLeave s0 (b :: rest) s.ctl (runOps (rest.flatMap (bankOps s0)) t)
      generalize runOps (rest.flatMap (bankOps s0)) t = q at h2 ⊢
      refine ⟨h1.same.trans h2.same, fun h => h2.ramWf (h1.ramWf h), fun a => ?_, fun hok a => ?_⟩
      · rcases h2.some_written a with h | ⟨⟨b', hb', hin⟩, h⟩
        · show q.2.ctl.ramRead a = _ ∨ _
          rw [h]
          rcases h1.some_written a with h' | ⟨hin, h'⟩
          · exact .inl h'
          · exact .inr ⟨⟨b, List.mem_cons_self, hin⟩, h'⟩
        · exact .inr ⟨⟨b', List.mem_cons_of_mem _ hb', hin⟩, h⟩
      · have g1 := h1.all_written rfl a
        have g2 := h2.all_written hok a
        show (_ → q.2.ctl.ramRead a = _) ∧ (_ → q.2.ctl.ramRead a = _)
        by_cases hr : ∃ b' ∈ rest, InBank s0 b' a
        · obtain ⟨b', hb', hin⟩ := hr
          exact ⟨fun _ => g2.1 ⟨b', hb', hin⟩, fun hn => absurd ⟨b', List.mem_cons_of_mem _ hb', hin⟩ hn⟩
        · rw [g2.2 hr]
          constructor
          · rintro ⟨b', hb', hin⟩
            rcases List.mem_cons.1 hb' with rfl | hb'
            · exact g1.1 hin
            · exact absurd ⟨b', hb', hin⟩ hr
          · exact fun hn => g1.2 fun hin => hn ⟨b, List.mem_cons_self, hin⟩

/-- The walk of a FLUSH, however it ends. -/
theorem flushOps_walk (s : State) (hh : s.ctl.h = false) :
    BanksLeave s (ascending s.dBmin.val s.dBmax.val) s.ctl (runOps (flushOps s) s) :=
  banks_walk s _ (fun b hb => by have := (ascending_mem.1 hb).2; omega) s hh

end Sys2Proof.Machine
end

