-- ==== Sys2Proof/Laws/Requests.lean ====
section
/-! SUPPORT. What `exec` and `step` can answer: one inversion lemma each, and each instruction as its pure effect. -/

namespace Sys2Proof.Machine

/-- What a request does once admitted. -/
def requestEffect : Instr → State → State
  | .init inv contrast => runInit inv contrast
  | .setPixel x y on => runSetPixel x y on
  | .clear => runClear
  | .readPixel x y => runReadPixel x y
  | .flush => runFlush
  | .nop => id
  | .functionSet _ _ _ => id
  | .displayControl _ _ => id
  | .setY _ => id
  | .setX _ => id
  | .tempControl _ => id
  | .setBias _ => id
  | .setVop _ => id
  | .data _ => id

/-- A request is its admission check before its effect (R242). -/
theorem exec_request {i : Instr} (h : i.isRequest = true) (s : State) : exec i s = admitRequest i s (requestEffect i) := by
  cases i <;> first | rfl | simp [Instr.isRequest] at h

/-- A controller instruction is the controller's part alone. -/
theorem exec_controller {i : Instr} (h : i.isRequest = false) (s : State) : exec i s = .next { s with ctl := s.ctl.run i } := by
  cases i <;> first | rfl | simp [Instr.isRequest] at h

theorem admitRequest_halted {i : Instr} {s : State} {r : FaultRecord} (h : s.faultReg = some r) (run : State → State) :
    admitRequest i s run = .fault (.halted r) := by
  simp [admitRequest, h]

theorem admitRequest_raises {i : Instr} {s : State} {reason : FaultReason} (h : s.faultReg = none)
    (ha : admission (isInit i) s.phase = some reason) (run : State → State) :
    admitRequest i s run = .next (s.raise reason (requestWord i)) := by
  simp [admitRequest, h, ha]

theorem admitRequest_runs {i : Instr} {s : State} (h : s.faultReg = none) (ha : admission (isInit i) s.phase = none)
    (run : State → State) : admitRequest i s run = .next (run s) := by
  simp [admitRequest, h, ha]

/-- All that a next state of `admitRequest` can be. -/
theorem admitRequest_next {i : Instr} {s t : State} {run : State → State} (h : admitRequest i s run = .next t) :
    s.faultReg = none ∧ ((∃ reason, admission (isInit i) s.phase = some reason ∧ t = s.raise reason (requestWord i)) ∨
      (admission (isInit i) s.phase = none ∧ t = run s)) := by
  cases hf : s.faultReg with
  | some r => rw [admitRequest_halted hf] at h; cases h
  | none =>
    refine ⟨rfl, ?_⟩
    cases ha : admission (isInit i) s.phase with
    | some reason => rw [admitRequest_raises hf ha] at h; left; exact ⟨reason, rfl, by injection h with h; exact h.symm⟩
    | none => rw [admitRequest_runs hf ha] at h; right; exact ⟨rfl, by injection h with h; exact h.symm⟩

/-- All that a next state of `exec` can be. -/
theorem exec_next {i : Instr} {s t : State} (h : exec i s = .next t) :
    (i.isRequest = false ∧ t = { s with ctl := s.ctl.run i }) ∨
    (i.isRequest = true ∧ s.faultReg = none ∧
      ((∃ reason, admission (isInit i) s.phase = some reason ∧ t = s.raise reason (requestWord i)) ∨
        (admission (isInit i) s.phase = none ∧ t = requestEffect i s))) := by
  cases hi : i.isRequest with
  | true => right; rw [exec_request hi] at h; exact ⟨rfl, admitRequest_next h⟩
  | false => left; rw [exec_controller hi] at h; injection h with h; exact ⟨rfl, h.symm⟩

/-- In a ready block every request but INIT runs. -/
theorem exec_ready {i : Instr} {s : State} (hs : Ready s) (hi : i.isRequest = true) (hn : isInit i = false) :
    exec i s = .next (requestEffect i s) := by
  rw [exec_request hi, admitRequest_runs hs.1]; rw [hs.2, hn]; rfl

/-- Before any INIT, INIT runs. -/
theorem exec_first_init {s : State} (hf : s.faultReg = none) (hp : s.phase = .uninit) (inv : Bool) (contrast : BitVec 7) :
    exec (.init inv contrast) s = .next (runInit inv contrast s) := by
  rw [exec_request rfl, admitRequest_runs hf]; rfl; rw [hp]; rfl

/-! ## Pixels -/

theorem locate_in {x y : Int} (h : inb x y) :
    locate x y = some ⟨⟨y.toNat / 8, by omega⟩, ⟨x.toNat, by omega⟩, ⟨y.toNat % 8, by omega⟩⟩ := by
  unfold locate; rw [dif_pos h]

theorem locate_out {x y : Int} (h : ¬ inb x y) : locate x y = none := by
  unfold locate; rw [dif_neg h]

theorem Pixel.addr_lt (p : Pixel) : p.addr < Config.fbBytes := cellAddr_lt p.bank.isLt p.col.isLt

theorem getLsbD_mask : ∀ i j : Fin 8, (1#8 <<< i.val).getLsbD j.val = decide (j.val = i.val) := by decide

/-- `putBit` sets one bit and leaves the others (R141). -/
theorem getLsbD_putBit (old : Byte) (i : Fin 8) (on : Bool) (j : Nat) (hj : j < 8) :
    (putBit old i on).getLsbD j = if j = i.val then on else old.getLsbD j := by
  unfold putBit
  have hb : (1#8 <<< i.val).getLsbD j = decide (j = i.val) := getLsbD_mask i ⟨j, hj⟩
  split
  · next h => rw [BitVec.getLsbD_or, hb, h]; split <;> simp [*]
  · next h =>
    rw [BitVec.getLsbD_and, BitVec.getLsbD_not, hb]
    have : on = false := by simpa using h
    split <;> simp [*]

/-! ## INIT and FLUSH -/

/-- How INIT ends (R121). -/
theorem runInit_cases (inv : Bool) (contrast : BitVec 7) (s : State) :
    ∃ t, BusOnly { s with cfgInv := inv, cfgContrast := contrast } t ∧
      t = (runOps (initOps inv contrast) { s with cfgInv := inv, cfgContrast := contrast }).2 ∧
      (((runOps (initOps inv contrast) { s with cfgInv := inv, cfgContrast := contrast }).1 = .ok ∧
          runInit inv contrast s = { t with phase := .ready }.respond .ok false) ∨
        ((runOps (initOps inv contrast) { s with cfgInv := inv, cfgContrast := contrast }).1 = .err ∧
          runInit inv contrast s = { t with phase := .failed }.respond .transportError false)) := by
  have hb := runOps_busOnly (initOps inv contrast) { s with cfgInv := inv, cfgContrast := contrast }
  have hr : runInit inv contrast s = initEnd (runOps (initOps inv contrast) { s with cfgInv := inv, cfgContrast := contrast }) := rfl
  rw [hr]
  generalize runOps (initOps inv contrast) { s with cfgInv := inv, cfgContrast := contrast } = p at *
  obtain ⟨r, t⟩ := p
  exact ⟨t, hb, rfl, by cases r <;> simp [initEnd]⟩

/-- How FLUSH ends (R171, R176). -/
theorem runFlush_cases (s : State) :
    (s.dEmpty = true ∧ runFlush s = s.respond .ok false) ∨
    (s.dEmpty = false ∧ ∃ t, BusOnly s t ∧ t = (runOps (flushOps s) s).2 ∧
      (((runOps (flushOps s) s).1 = .ok ∧ runFlush s = t.clearDirty.respond .ok false) ∨
        ((runOps (flushOps s) s).1 = .err ∧ runFlush s = t.respond .transportError false))) := by
  cases he : s.dEmpty with
  | true => left; simp [runFlush, he]
  | false =>
    right
    have hb := runOps_busOnly (flushOps s) s
    have hr : runFlush s = flushEnd (runOps (flushOps s) s) := by simp [runFlush, he]
    rw [hr]
    generalize runOps (flushOps s) s = p at *
    obtain ⟨r, t⟩ := p
    exact ⟨rfl, t, hb, rfl, by cases r <;> simp [flushEnd]⟩

/-- No request that runs halts the block. -/
theorem requestEffect_faultReg (i : Instr) (s : State) : (requestEffect i s).faultReg = s.faultReg := by
  cases i with
  | init inv contrast =>
    obtain ⟨t, hb, -, h | h⟩ := runInit_cases inv contrast s <;> simp [requestEffect, h.2, hb.faultReg]
  | setPixel x y on =>
    show (runSetPixel x y on s).faultReg = _
    unfold runSetPixel; cases locate x y <;> simp
  | flush =>
    rcases runFlush_cases s with h | ⟨-, t, hb, -, h | h⟩ <;> simp [requestEffect, h.2]
    all_goals exact hb.faultReg
  | clear => rfl
  | readPixel _ _ => rfl
  | nop => rfl
  | functionSet _ _ _ => rfl
  | displayControl _ _ => rfl
  | setY _ => rfl
  | setX _ => rfl
  | tempControl _ => rfl
  | setBias _ => rfl
  | setVop _ => rfl
  | data _ => rfl

/-! ## One step -/

/-- A step on the next request word (R242): a request runs, an illegal word raises. -/
theorem step_request {s : State} {w : Word} {rest : List Word} (hm : s.ctl.refusal = false) (hb : s.busIn = [])
    (hf : s.faultReg = none) (hr : s.requests = w :: rest) :
    (∀ i, decodeRequest w = .instr i → step s = exec i { s with requests := rest }) ∧
    (decodeRequest w = .illegalRequest w → step s = .next (State.raise .illegalRequest w { s with requests := rest })) := by
  constructor
  · intro i hd; simp [step, fetch, hm, hb, hf, hr, decode, hd, Fetched.ofDecoded]
  · intro hd; simp [step, fetch, hm, hb, hf, hr, decode, hd, Fetched.ofDecoded]

/-- All that a next state of `step` can be: the run is unmarked, and a bench byte is ignored, run or refused; or the block waits,
raises on an illegal word, or runs a request. -/
theorem step_cases {s t : State} (h : step s = .next t) :
    s.ctl.refusal = false ∧
    ((∃ b rest, s.busIn = b :: rest ∧
        ((s.cs = .high ∧ t = { s with busIn := rest }) ∨
          (∃ i, i.isRequest = false ∧ exec i { s with busIn := rest } = .next t) ∨
          t = refuseByte { s with busIn := rest })) ∨
      (s.busIn = [] ∧ s.faultReg = none ∧
        ((s.requests = [] ∧ t = s) ∨
          (∃ w rest, s.requests = w :: rest ∧
            (t = State.raise .illegalRequest w { s with requests := rest } ∨
              (∃ i, i.isRequest = true ∧ exec i { s with requests := rest } = .next t)))))) := by
  unfold step fetch at h
  cases hm : s.ctl.refusal with
  | true => simp [hm] at h
  | false =>
    refine ⟨rfl, ?_⟩
    cases hb : s.busIn with
    | cons b rest =>
      left; refine ⟨b, rest, rfl, ?_⟩
      cases hcs : s.cs with
      | high => left; simp [hm, hb, hcs] at h; exact ⟨rfl, h.symm⟩
      | low =>
        right
        simp only [hm, hb, hcs] at h
        rcases decode_byte_shape s.ctl.h s.dc b with ⟨i, hd, hi⟩ | hd
        · left; simp [hd, Fetched.ofDecoded] at h; exact ⟨i, hi, h⟩
        · right; simp [hd, Fetched.ofDecoded] at h; exact h.symm
    | nil =>
      right
      cases hf : s.faultReg with
      | some r => simp [hm, hb, hf] at h
      | none =>
        refine ⟨rfl, rfl, ?_⟩
        cases hr : s.requests with
        | nil => left; simp [hm, hb, hf, hr] at h; exact ⟨rfl, h.symm⟩
        | cons w rest =>
          right; refine ⟨w, rest, rfl, ?_⟩
          simp only [hm, hb, hf, hr] at h
          have hw : decode s.ctl.h (.request w) = decodeRequest w := rfl
          rcases decodeRequest_shape w with ⟨i, hd, hi⟩ | hd
          · right; simp [hw, hd, Fetched.ofDecoded] at h; exact ⟨i, hi, h⟩
          · left; simp [hw, hd, Fetched.ofDecoded] at h; exact h.symm

end Sys2Proof.Machine
end

