-- ==== Sys2Proof/Tests/Slice0.lean ====
section
/-! SUPPORT. The model's own tests: ill-formed terms, decoding, one step per instruction, and a witness for each statement that has
hypotheses. Expected results are those of spec/95_test_vectors.md (V-… and L1-…) or of the rule named. -/

namespace Sys2Proof.Machine

/-! ## Small states -/

/-- A controller in the known addressable state (R225). -/
def tCtl : Ctl where
  h        := false
  pd       := false
  v        := false
  bs       := 4#3
  vop      := 64#7
  tc       := 0#2
  d        := true
  e        := false
  x        := 0
  y        := 0
  ram      := []
  ramEpoch := 0
  refusal  := false
  draws    := 1

/-- Block reset with a controller whose fields are known. -/
def tReset : State := { State.reset with ctl := tCtl }

/-- After `INIT contrast=64, color=normal`. -/
def tUp : State := { tReset with phase := .ready, cfgContrast := 64#7 }

/-- After `SETPX 10, 5, on` (V-FL-2), with `answers` still to come. -/
def tOne (answers : List Answer) : State :=
  { tUp with fb := [(10, 0x20#8)], dEmpty := false, dCmin := 10, dCmax := 10, answers := answers }

/-- After `SETPX 0, 0, on` and `SETPX 0, 8, on` (V-FL-7). -/
def tTwo (answers : List Answer) : State :=
  { tUp with fb := [(0, 0x01#8), (84, 0x01#8)], dEmpty := false, dBmax := 1, answers := answers }

/-- In extended mode. -/
def tExt : State := { tUp with ctl := { tCtl with h := true } }

/-- After a failed INIT. -/
def tFailed : State := { tReset with phase := .failed }

/-- Halted. -/
def tHalted : State := { tUp with faultReg := some ⟨.reinit, 0x10000040#32⟩ }

/-- One byte inside a transaction at a DC level. -/
def tByte (s : State) (dc : Level) (b : Byte) : State := { s with busIn := [b], cs := .low, dc := dc }

/-- One request word. -/
def tWord (s : State) (w : Word) : State := { s with requests := [w] }

/-- What a step leaves, seen through `f`. -/
def tSee {α : Type} (f : State → α) (o : Host.Outcome State Fault Refusal) : Option α := (reached o).map f

/-! ## Well-formedness: every check refuses an ill-formed term (R73) -/

theorem test_wf_setPixel_x_above : (Instr.setPixel 2048 0 true).wf = false := by decide
theorem test_wf_setPixel_x_below : (Instr.setPixel (-2049) 0 true).wf = false := by decide
theorem test_wf_setPixel_y_above : (Instr.setPixel 0 2048 true).wf = false := by decide
theorem test_wf_setPixel_y_below : (Instr.setPixel 0 (-2049) true).wf = false := by decide
theorem test_wf_readPixel_x_above : (Instr.readPixel 2048 0).wf = false := by decide
theorem test_wf_readPixel_x_below : (Instr.readPixel (-2049) 0).wf = false := by decide
theorem test_wf_readPixel_y_above : (Instr.readPixel 0 2048).wf = false := by decide
theorem test_wf_readPixel_y_below : (Instr.readPixel 0 (-2049)).wf = false := by decide
theorem test_wf_ends : (Instr.setPixel (-2048) 2047 true).wf = true ∧ (Instr.readPixel 2047 (-2048)).wf = true := by decide

/-! ## Decoding: each row's word, field by field from R70 or R80 -/

-- OP 0001, zeros 27:9, INV 1, zero, CONTRAST 0110000 (P2: 0x10000130)
theorem test_decode_init : decodeRequest 0b0001_0000000000000000000_1_0_0110000#32 = .instr (.init true 48#7) := by decide
-- OP 0010, zeros 27:25, ON 1, Y 0000_0010_1111 (47), X 0000_0101_0011 (83) (V-PX-2: 0x2102F053)
theorem test_decode_setPixel :
    decodeRequest 0b0010_000_1_000000101111_000001010011#32 = .instr (.setPixel 83 47 true) := by decide
-- Y = X = 1000_0000_0000 (-2048) (V-PX-9: 0x21800800)
theorem test_decode_setPixel_negative :
    decodeRequest 0b0010_000_1_100000000000_100000000000#32 = .instr (.setPixel (-2048) (-2048) true) := by decide
theorem test_decode_clear : decodeRequest 0b0011_0000000000000000000000000000#32 = .instr .clear := by decide
-- OP 0100, zeros 27:24, Y 5, X 10 (V-RD-1: 0x4000500A)
theorem test_decode_readPixel : decodeRequest 0b0100_0000_000000000101_000000001010#32 = .instr (.readPixel 10 5) := by decide
theorem test_decode_flush : decodeRequest 0b0101_0000000000000000000000000000#32 = .instr .flush := by decide
theorem test_decode_nop : decodeCommand true 0b00000000#8 = .instr .nop := by decide
theorem test_decode_functionSet : decodeCommand false 0b00100_1_0_1#8 = .instr (.functionSet true false true) := by decide
theorem test_decode_displayControl : decodeCommand false 0b00001_1_0_1#8 = .instr (.displayControl true true) := by decide
theorem test_decode_setY : decodeCommand false 0b01000_101#8 = .instr (.setY 5#3) := by decide
theorem test_decode_setX : decodeCommand false 0b1_1010011#8 = .instr (.setX 83#7) := by decide
theorem test_decode_tempControl : decodeCommand true 0b000001_10#8 = .instr (.tempControl 2#2) := by decide
theorem test_decode_setBias : decodeCommand true 0b00010_100#8 = .instr (.setBias 4#3) := by decide
theorem test_decode_setVop : decodeCommand true 0b1_0001010#8 = .instr (.setVop 10#7) := by decide
theorem test_decode_data : decode true (byteCode .high 0b01011010#8) = .instr (.data 0x5A#8) := by decide
-- V-INIT-8, V-INIT-9, V-PX-11, V-CLR-3, V-RD-5 and reserved opcodes (R71)
theorem test_decode_illegal :
    decodeRequest 0x10000080#32 = .illegalRequest 0x10000080#32 ∧ decodeRequest 0x10000200#32 = .illegalRequest 0x10000200#32 ∧
    decodeRequest 0x22000000#32 = .illegalRequest 0x22000000#32 ∧ decodeRequest 0x30000001#32 = .illegalRequest 0x30000001#32 ∧
    decodeRequest 0x41000000#32 = .illegalRequest 0x41000000#32 ∧ decodeRequest 0x00000000#32 = .illegalRequest 0x00000000#32 ∧
    decodeRequest 0x60000000#32 = .illegalRequest 0x60000000#32 := by decide
-- V-CTL-14, and the extended-mode rows in basic mode (R91)
theorem test_decode_reserved :
    decodeCommand false 0x14#8 = .reservedByte 0x14#8 ∧ decodeCommand false 0x04#8 = .reservedByte 0x04#8 ∧
    decodeCommand true 0x40#8 = .reservedByte 0x40#8 ∧ decodeCommand true 0x30#8 = .reservedByte 0x30#8 := by decide
theorem test_encode_words :
    encode (.setPixel 0 (-1) true) = .request 0x21FFF000#32 ∧ encode (.readPixel 84 0) = .request 0x40000054#32 ∧
    encode (.setVop 64#7) = .command 0xC0#8 ∧ encode (.init false 127#7) = .request 0x1000007F#32 := by decide

/-! ## The table's words, as the first instruction after reset -/

theorem test_table_word_request : decodeTableWord 32 0x2102F053 = some (.setPixel 83 47 true) := by decide
theorem test_table_word_byte : decodeTableWord 8 0x14 = some (.setBias 4#3) ∧ decodeTableWord 8 0x45 = some (.setY 5#3) := by
  decide
theorem test_fetch_word_request :
    tSee (·.faultReg) (step (State.reset.withFetchWord 32 0x21000000)) = some (some ⟨.notInitialized, 0x21000000#32⟩) := by
  decide
theorem test_fetch_word_byte : tSee (·.ctl.bs) (step (tReset.withFetchWord 8 0x14)) = some 4#3 := by decide

/-! ## INIT -/

-- V-INIT-1
theorem test_init_trace :
    tSee (fun t => (t.trace, t.phase, t.cfgContrast, t.responses))
      (step { tWord State.reset 0x10000040#32 with answers := List.replicate 7 .ok }) =
    some ([.rst .low .ok, .rst .high .ok, .txn .command [0x21#8] .ok, .txn .command [0x14#8] .ok, .txn .command [0xC0#8] .ok,
      .txn .command [0x20#8] .ok, .txn .command [0x0C#8] .ok], .ready, 64#7, [⟨.ok, false⟩]) := by decide
-- V-INIT-4
theorem test_init_fails_at_bias :
    tSee (fun t => (t.trace, t.phase, t.responses, t.ctl.h))
      (step { tWord State.reset 0x10000040#32 with answers := [.ok, .ok, .ok, .err 0] }) =
    some ([.rst .low .ok, .rst .high .ok, .txn .command [0x21#8] .ok, .txn .command [0x14#8] .err], .failed,
      [⟨.transportError, false⟩], true) := by decide

/-! ## SET_PIXEL, CLEAR, READ_PIXEL -/

-- V-PX-2
theorem test_setPixel_last_corner :
    tSee (fun t => (t.fb, t.dEmpty, t.dBmin, t.dBmax, t.dCmin, t.dCmax)) (step (tWord tUp 0x2102F053#32)) =
      some ([(503, 0x80#8)], false, 5, 5, 83, 83) := by decide
-- L1-5, V-PX-13
theorem test_setPixel_region_grows :
    tSee (fun t => (t.fb, t.dBmin, t.dBmax, t.dCmin, t.dCmax)) (exec (.setPixel 70 40 true) (tOne [])) =
      some ([(10, 0x20#8), (490, 0x01#8)], 0, 5, 10, 70) := by decide
-- V-CLR-1 on a drawn pixel
theorem test_clear :
    tSee (fun t => (t.fb, t.dEmpty, t.dBmin, t.dBmax, t.dCmin, t.dCmax)) (step (tWord (tOne []) 0x30000000#32)) =
      some ([], false, 0, 5, 0, 83) := by decide
-- V-RD-1, V-RD-2
theorem test_readPixel :
    tSee lastResponse (step (tWord (tOne []) 0x4000500A#32)) = some (some ⟨.ok, true⟩) ∧
    tSee lastResponse (step (tWord (tOne []) 0x4000600A#32)) = some (some ⟨.ok, false⟩) := by decide

/-! ## FLUSH -/

-- V-FL-2
theorem test_flush_one_pixel :
    tSee (fun t => (t.trace, t.dEmpty, t.ctl.x, t.ctl.y, t.ctl.dram 0 10)) (step (tWord (tOne [.ok, .ok]) 0x50000000#32)) =
      some ([.txn .command [0x8A#8, 0x40#8] .ok, .txn .data [0x20#8] .ok], true, 11, 0, 0x20#8) := by decide
-- V-FL-7
theorem test_flush_fails_at_third :
    tSee (fun t => (t.trace, t.dEmpty, t.responses, t.ctl.x, t.ctl.y)) (exec .flush (tTwo [.ok, .ok, .err 1])) =
      some ([.txn .command [0x80#8, 0x40#8] .ok, .txn .data [0x01#8] .ok, .txn .command [0x80#8, 0x41#8] .err], false,
        [⟨.transportError, false⟩], 0, 0) := by decide

/-! ## Faults -/

-- V-INIT-6, V-INIT-7, V-PX-12
theorem test_faults :
    tSee (·.faultReg) (step (tWord tUp 0x10000040#32)) = some (some ⟨.reinit, 0x10000040#32⟩) ∧
    tSee (·.faultReg) (step (tWord tFailed 0x10000040#32)) = some (some ⟨.useAfterFail, 0x10000040#32⟩) ∧
    tSee (·.faultReg) (step (tWord tReset 0x21000000#32)) = some (some ⟨.notInitialized, 0x21000000#32⟩) ∧
    tSee (·.faultReg) (step (tWord tFailed 0x10000080#32)) = some (some ⟨.illegalRequest, 0x10000080#32⟩) := by decide

/-! ## The target controller -/

-- V-BUS-2
theorem test_txn_prefix :
    ((txn .data [0x01#8, 0x02#8, 0x03#8] { tUp with answers := [.err 2] }).2.ctl.ram,
      (txn .data [0x01#8, 0x02#8, 0x03#8] { tUp with answers := [.err 2] }).1) =
      ([(0, 0x01#8), (1, 0x02#8)], .err) := by decide
-- V-CTL-18
theorem test_nop : tSee (·.ctl) (step (tByte tExt .low 0x00#8)) = some tExt.ctl := by decide
-- V-CTL-1, V-CTL-3
theorem test_functionSet :
    tSee (·.ctl) (step (tByte tUp .low 0x21#8)) = some { tCtl with h := true } ∧
    tSee (·.ctl.refusal) (step (tByte tUp .low 0x24#8)) = some true := by decide
-- V-CTL-7: all on
theorem test_displayControl : tSee (·.ctl) (step (tByte tUp .low 0x09#8)) = some { tCtl with d := false, e := true } := by decide
-- V-CTL-13: what R224 leaves
theorem test_displayControl_extended :
    tSee (fun t => (t.ctl.h, t.ctl.x, t.ctl.y, t.ctl.refusal)) (step (tByte tExt .low 0x0C#8)) = some (true, 0, 0, false) ∧
    tSee (·.ctl.ram) (step (tByte tExt .low 0x0C#8)) = some [] := by decide
-- V-CTL-8, V-CTL-9
theorem test_setY :
    tSee (·.ctl) (step (tByte tUp .low 0x45#8)) = some { tCtl with y := 5 } ∧
    tSee (·.ctl.refusal) (step (tByte tUp .low 0x46#8)) = some true := by decide
-- V-CTL-10, V-CTL-11
theorem test_setX :
    tSee (·.ctl) (step (tByte tUp .low 0xD3#8)) = some { tCtl with x := 83 } ∧
    tSee (·.ctl.refusal) (step (tByte tUp .low 0xD4#8)) = some true := by decide
-- R217
theorem test_tempControl : tSee (·.ctl.tc) (step (tByte tExt .low 0x06#8)) = some 2#2 := by decide
-- V-CTL-5, V-CTL-14
theorem test_setBias :
    tSee (·.ctl.bs) (step (tByte { tExt with ctl := { tExt.ctl with bs := 0#3 } } .low 0x14#8)) = some 4#3 ∧
    tSee (·.ctl.refusal) (step (tByte tUp .low 0x14#8)) = some true := by decide
-- V-CTL-6, V-CTL-12
theorem test_setVop :
    tSee (·.ctl.vop) (step (tByte tExt .low 0xFF#8)) = some 127#7 ∧
    tSee (fun t => (t.ctl.vop, t.ctl.x)) (step (tByte tExt .low 0x8A#8)) = some (10#7, 0) := by decide
-- V-CTL-15, V-CTL-17
theorem test_data :
    tSee (fun t => (t.ctl.dram 2 82, t.ctl.x, t.ctl.y))
      (step (tByte { tUp with ctl := { tCtl with x := 82, y := 2 } } .high 0x5A#8)) = some (0x5A#8, 83, 2) ∧
    tSee (fun t => (t.ctl.dram 1 3, t.ctl.x))
      (step (tByte { tExt with ctl := { tExt.ctl with x := 3, y := 1 } } .high 0x77#8)) = some (0x77#8, 4) := by decide
-- V-CTL-16
theorem test_data_wraps :
    tSee (fun t => (t.ctl.dram 2 83, t.ctl.x))
      (step (tByte { tUp with ctl := { tCtl with x := 83, y := 2 } } .high 0xA5#8)) = some (0xA5#8, 0) := by decide
-- R226, inverted
theorem test_glass :
    Ctl.glassOn { tCtl with e := true, ram := [(84, 0x01#8)] } 1 0 0 = false ∧
    Ctl.glassOn { tCtl with ram := [(84, 0x01#8)] } 1 0 0 = true := by decide

/-! ## Host-side syntax -/

-- P4
theorem test_fillrect :
    assemble [.fillrect 2 6 3 9 true] =
      [0x21006002#32, 0x21006003#32, 0x21007002#32, 0x21007003#32, 0x21008002#32, 0x21008003#32, 0x21009002#32, 0x21009003#32] := by
  decide
-- R94's set for ordered corners and for x0 > x1, in ascending y then x order
theorem test_rect :
    edgePoints 3 0 5 2 = [(3, 0), (4, 0), (5, 0), (3, 1), (5, 1), (3, 2), (4, 2), (5, 2)] ∧
    edgePoints 5 0 3 2 = [(3, 0), (5, 0), (3, 1), (5, 1), (3, 2), (5, 2)] ∧ edgePoints 3 2 4 0 = [(3, 0), (4, 0), (3, 2), (4, 2)] := by
  decide
theorem test_blank : assemble [.blank] = [0x30000000#32, 0x50000000#32] := by decide

/-! ## Witnesses: for each statement with hypotheses, a state and operands that meet them all, clause by clause -/

theorem witness_DecodeOfEncodeGivesTheInstructionBack :
    ((Instr.setPixel (-2048) 2047 true).wf = true ∧ (Instr.setPixel (-2048) 2047 true).decodedIn false = true) ∧
    ((Instr.setX 127#7).wf = true ∧ (Instr.setX 127#7).decodedIn false = true) ∧
    ((Instr.setVop 127#7).wf = true ∧ (Instr.setVop 127#7).decodedIn true = true) := by decide

theorem witness_EncodeOfDecodeGivesTheCodeBack :
    decode false (.request 0x21FFF000#32) = .instr (.setPixel 0 (-1) true) ∧
    decode true (.command 0xFF#8) = .instr (.setVop 127#7) ∧ decode false (.data 0xFF#8) = .instr (.data 0xFF#8) := by decide

theorem witness_RequestsDecodeByMatchAndMask :
    0x1000017F#32 &&& 0xFFFFFE80#32 = 0x10000000#32 ∧ 0x21FFFFFF#32 &&& 0xFE000000#32 = 0x20000000#32 ∧
    0x30000000#32 &&& 0xFFFFFFFF#32 = 0x30000000#32 ∧ 0x40FFFFFF#32 &&& 0xFF000000#32 = 0x40000000#32 ∧
    0x50000000#32 &&& 0xFFFFFFFF#32 = 0x50000000#32 ∧
    (0x41000000#32 &&& 0xFFFFFE80#32 ≠ 0x10000000#32 ∧ 0x41000000#32 &&& 0xFE000000#32 ≠ 0x20000000#32 ∧
      0x41000000#32 &&& 0xFFFFFFFF#32 ≠ 0x30000000#32 ∧ 0x41000000#32 &&& 0xFF000000#32 ≠ 0x40000000#32 ∧
      0x41000000#32 &&& 0xFFFFFFFF#32 ≠ 0x50000000#32) := by decide

theorem witness_AStepRunsTheRequestWord :
    (tWord tUp 0x2102F053#32).ctl.refusal = false ∧ (tWord tUp 0x2102F053#32).busIn = [] ∧
    (tWord tUp 0x2102F053#32).faultReg = none ∧ (Instr.setPixel 83 47 true).wf = true ∧
    encode (.setPixel 83 47 true) = .request 0x2102F053#32 ∧ (tWord tUp 0x2102F053#32).requests = 0x2102F053#32 :: [] := by decide

theorem witness_AStepRunsTheControllerByte :
    (tByte tExt .low 0x14#8).ctl.refusal = false ∧ (tByte tExt .low 0x14#8).busIn = 0x14#8 :: [] ∧
    (tByte tExt .low 0x14#8).cs = .low ∧ (Instr.setBias 4#3).decodedIn (tByte tExt .low 0x14#8).ctl.h = true ∧
    encode (.setBias 4#3) = byteCode (tByte tExt .low 0x14#8).dc 0x14#8 ∧
    encode (.data 0x14#8) = byteCode (tByte tExt .high 0x14#8).dc 0x14#8 := by decide

theorem witness_TheControllerTakesNoByteOutsideATransaction :
    ({ tUp with busIn := [0x24#8] } : State).ctl.refusal = false ∧ ({ tUp with busIn := [0x24#8] } : State).busIn = 0x24#8 :: [] ∧
    ({ tUp with busIn := [0x24#8] } : State).cs = .high ∧
    (Instr.setPixel 0 0 true).isRequest = true ∧ ∃ t, exec (.setPixel 0 0 true) tUp = .next t ∧ t.trace = tUp.trace :=
  ⟨rfl, rfl, rfl, rfl, _, rfl, by decide⟩

theorem witness_TheBlockWaitsForARequestWord :
    tUp.ctl.refusal = false ∧ tUp.busIn = [] ∧ tUp.faultReg = none ∧ tUp.requests = [] := by decide

theorem witness_AnIllegalWordRaisesIllegalRequest :
    (∀ w, (tWord tUp w).ctl.refusal = false ∧ (tWord tUp w).busIn = [] ∧ (tWord tUp w).faultReg = none ∧
      (tWord tUp w).requests = w :: []) ∧
    (0x0FFFFFFF#32).extractLsb' 28 4 = 0#4 ∧ 6 ≤ ((0x60000000#32).extractLsb' 28 4).toNat ∧
    6 ≤ ((0xFFFFFFFF#32).extractLsb' 28 4).toNat ∧
    ((0x10000200#32).extractLsb' 28 4 = 1#4 ∧ (0x10000200#32).extractLsb' 9 19 ≠ 0#19) ∧
    ((0x10000080#32).extractLsb' 28 4 = 1#4 ∧ (0x10000080#32).getLsbD 7 = true) ∧
    ((0x22000000#32).extractLsb' 28 4 = 2#4 ∧ (0x22000000#32).extractLsb' 25 3 ≠ 0#3) ∧
    ((0x30000001#32).extractLsb' 28 4 = 3#4 ∧ (0x30000001#32).extractLsb' 0 28 ≠ 0#28) ∧
    ((0x41000000#32).extractLsb' 28 4 = 4#4 ∧ (0x41000000#32).extractLsb' 24 4 ≠ 0#4) ∧
    ((0x58000000#32).extractLsb' 28 4 = 5#4 ∧ (0x58000000#32).extractLsb' 0 28 ≠ 0#28) :=
  ⟨fun _ => ⟨rfl, rfl, rfl, rfl⟩, by decide⟩

theorem witness_AdmissionFollowsItsLinesInOrder :
    (∀ w, ∀ s ∈ [tUp, tReset, tFailed, tHalted],
      (tWord s w).ctl.refusal = false ∧ (tWord s w).busIn = [] ∧ (tWord s w).requests = w :: []) ∧
    tHalted.faultReg = some ⟨.reinit, 0x10000040#32⟩ ∧
    (tUp.faultReg = none ∧ decodeRequest 0x60000000#32 = .illegalRequest 0x60000000#32) ∧
    (tFailed.faultReg = none ∧ tFailed.phase = .failed ∧ decodeRequest 0x50000000#32 = .instr .flush) ∧
    (tReset.faultReg = none ∧ tReset.phase = .uninit ∧ ∀ inv c, Instr.flush ≠ .init inv c) ∧
    (tUp.phase = .ready ∧ decodeRequest 0x10000040#32 = .instr (.init false 64#7) ∧
      ∃ inv c, Instr.init false 64#7 = .init inv c) :=
  ⟨by intro w s hs; simp at hs; rcases hs with rfl | rfl | rfl | rfl <;> exact ⟨rfl, rfl, rfl⟩,
    by decide, by decide, by decide, ⟨rfl, rfl, by simp⟩, rfl, by decide, _, _, rfl⟩

-- one word for each reason
theorem witness_FaultEntryChangesOnlyTheFaultRegister :
    (∀ w, ∀ s ∈ [tUp, tReset, tFailed], (tWord s w).ctl.refusal = false ∧ (tWord s w).busIn = [] ∧
      (tWord s w).faultReg = none ∧ (tWord s w).requests = w :: []) ∧
    (∃ t, step (tWord tUp 0x30000001#32) = .next t ∧ t.faultReg ≠ none) ∧
    (∃ t, step (tWord tReset 0x50000000#32) = .next t ∧ t.faultReg ≠ none) ∧
    (∃ t, step (tWord tUp 0x10000040#32) = .next t ∧ t.faultReg ≠ none) ∧
    (∃ t, step (tWord tFailed 0x50000000#32) = .next t ∧ t.faultReg ≠ none) :=
  ⟨by intro w s hs; simp at hs; rcases hs with rfl | rfl | rfl <;> exact ⟨rfl, rfl, rfl, rfl⟩,
    ⟨_, rfl, by decide⟩, ⟨_, rfl, by decide⟩, ⟨_, rfl, by decide⟩, ⟨_, rfl, by decide⟩⟩

theorem witness_AHaltedBlockTakesNoStep :
    tHalted.faultReg = some ⟨.reinit, 0x10000040#32⟩ ∧ Instr.clear.isRequest = true ∧ tHalted.ctl.refusal = false ∧
    tHalted.busIn = [] ∧ (∃ t, exec .nop tHalted = .next t) := ⟨rfl, rfl, rfl, rfl, _, rfl⟩

/-- The block's invariant in a READY state with a pixel drawn. -/
theorem tOne_inv (answers : List Answer) : BlockInv (tOne answers) := by
  constructor <;> simp [tOne, tUp, tReset, tCtl, State.reset, Memory.wf, Memory.ramWf, Memory.rising, Known, Config.bias,
    Config.fbBytes]

theorem witness_EveryStepKeepsTheBlockInvariant :
    BlockInv (tWord (tOne [.ok, .ok]) 0x50000000#32) ∧
    (∃ t, step (tWord (tOne [.ok, .ok]) 0x50000000#32) = .next t ∧ t.dEmpty = true) := by
  refine ⟨?_, _, rfl, by decide⟩
  have h := tOne_inv [.ok, .ok]
  exact ⟨h.1, h.2, h.3, h.4, h.5, h.6, h.7, h.8, h.9⟩

theorem witness_NoRequestOfTheBlockIsRefused :
    BlockInv (tOne [.ok, .ok]) ∧ Instr.flush.isRequest = true ∧ ∃ t, exec .flush (tOne [.ok, .ok]) = .next t :=
  ⟨tOne_inv _, rfl, _, rfl⟩

theorem witness_EachRegisterHasItsWriters :
    (∃ t, exec .flush (tOne [.ok, .ok]) = .next t) ∧ (∀ inv c, Instr.flush ≠ .init inv c) ∧
    (∀ x y on, Instr.flush ≠ .setPixel x y on) ∧ Instr.flush ≠ .clear ∧
    (∃ t, exec (.readPixel 0 0) tUp = .next t) ∧ (∀ inv c, Instr.readPixel 0 0 ≠ .init inv c) ∧ Instr.readPixel 0 0 ≠ .flush ∧
    (∃ t, exec .nop tUp = .next t) ∧ Instr.nop.isRequest = false := by
  refine ⟨⟨_, rfl⟩, ?_, ?_, ?_, ⟨_, rfl⟩, ?_, ?_, ⟨_, rfl⟩, rfl⟩ <;> simp

theorem witness_EveryRequestThatRunsRespondsOnce :
    (Instr.init false 64#7).isRequest = true ∧ tReset.faultReg = none ∧
    (tReset.phase = .uninit ∧ ∃ inv c, Instr.init false 64#7 = .init inv c) ∧
    (tUp.phase = .ready ∧ ∀ inv c, Instr.readPixel 83 47 ≠ .init inv c) :=
  ⟨rfl, rfl, ⟨rfl, _, _, rfl⟩, rfl, by simp⟩

theorem witness_TransportErrorComesFromTheFirstRefusedEvent :
    (∃ t, exec .flush (tTwo [.ok, .ok, .err 1]) = .next t ∧
      t.responses = (tTwo [.ok, .ok, .err 1]).responses ++ [⟨.transportError, false⟩]) ∧
    (∃ t, exec (.init false 0#7) { tReset with answers := [.err 0] } = .next t ∧
      t.responses = tReset.responses ++ [⟨.transportError, false⟩]) :=
  ⟨⟨_, rfl, by decide⟩, _, rfl, by decide⟩

theorem witness_TheControllerNeverInfluencesTheBlock :
    Instr.flush.isRequest = true ∧ ∃ t, exec .flush (tOne [.ok, .ok]) = .next t := ⟨rfl, _, rfl⟩

theorem witness_ATransactionDeliversWhatItsAnswerSays :
    (tOne [.ok]).answers = .ok :: [] ∧ (tOne [.err 0]).answers = .err 0 :: [] := by decide

theorem witness_APinOperationMovesTheResetLine :
    (tOne [.ok]).answers = .ok :: [] ∧ (tOne [.err 0]).answers = .err 0 :: [] ∧
    ¬ ((tOne [.ok]).rst = .low ∧ Level.high = .high) ∧
    (({ tOne [.ok] with rst := .low } : State).rst = .low ∧ Level.high = .high) := by decide

theorem witness_TheBlockEmitsOnlyItsOwnCommandBytes :
    Instr.flush.isRequest = true ∧ DirtyOrdered (tOne [.ok, .ok]) ∧ ∃ t, exec .flush (tOne [.ok, .ok]) = .next t ∧
      .txn .command [0x8A#8, 0x40#8] .ok ∈ t.trace ∧ .txn .data [0x20#8] .ok ∈ t.trace :=
  ⟨rfl, by decide, _, rfl, by decide, by decide⟩

theorem witness_AnAcceptedInitBringsTheControllerUp :
    ({ tReset with answers := List.replicate 7 .ok } : State).faultReg = none ∧
    ({ tReset with answers := List.replicate 7 .ok } : State).phase = .uninit ∧
    ({ tReset with answers := List.replicate 7 .ok } : State).answers = List.replicate 7 .ok ++ [] := by decide

theorem witness_InitStopsAtTheFirstRefusedEvent :
    tReset.faultReg = none ∧ tReset.phase = .uninit ∧ 6 < 7 ∧
    ({ tReset with answers := [.err 0] } : State).answers = List.replicate 0 .ok ++ .err 0 :: [] ∧
    ({ tReset with answers := [.ok, .ok, .ok, .ok, .ok, .ok, .err 1] } : State).answers =
      List.replicate 6 .ok ++ .err 1 :: [] := by decide

theorem witness_EveryCompletedInitEmitsOnePulseAndFiveCommands :
    ∃ t, exec (.init true 0#7) { tReset with answers := List.replicate 7 .ok } = .next t ∧
      t.responses = tReset.responses ++ [⟨.ok, false⟩] := ⟨_, rfl, by decide⟩

theorem witness_InitEndsReadyOrFailed : tReset.faultReg = none ∧ tReset.phase = .uninit := by decide

theorem witness_SetPixelWritesOneBitAndExtendsTheRegion :
    (Ready tUp ∧ tUp.dEmpty = true) ∧ (Ready (tOne []) ∧ (tOne []).dEmpty = false) ∧ inb 0 0 ∧ inb 83 47 := by decide

theorem witness_OutOfBoundsIsClipped :
    Ready tUp ∧ ((-1 : Int) < 0) ∧ ((83 : Int) < 84) ∧ ((47 : Int) < 48) := by decide

theorem witness_ReadPixelRespondsWhatSetPixelWrote : Ready tUp ∧ inb 83 47 ∧ inb 0 0 := by decide

theorem witness_ReadPixelRespondsTheBitAndChangesNothing : Ready (tOne []) ∧ inb 83 47 ∧ inb 0 0 := by decide

theorem witness_ClearZeroesAndMarksEverythingDirty : Ready (tOne []) ∧ inb 83 47 := by decide

theorem witness_TheDirtyRegionIsTheSmallestBox :
    Ready tUp ∧ tUp.dEmpty = true ∧
    ∃ p ∈ ([(10, 5, true), (84, 0, true), (70, 40, false)] : List (Int × Int × Bool)), inb p.1 p.2.1 :=
  ⟨by decide, by decide, (10, 5, true), by decide, by decide⟩

theorem witness_RectanglesWriteExactlyTheirPixels :
    Ready (tOne []) ∧ ((2 : Int) ≤ 3 ∧ (6 : Int) ≤ 9) ∧ ((5 : Int) ≤ 5 ∧ (0 : Int) ≤ 0) ∧ inb 0 0 ∧ inb 83 47 := by decide

theorem witness_FlushOfAnEmptyRegionIsSilent : Ready tUp ∧ tUp.dEmpty = true := by decide

theorem witness_AnAcceptedFlushStreamsTheRegionBankByBank :
    Ready (tTwo [.ok, .ok, .ok, .ok]) ∧ (tTwo [.ok, .ok, .ok, .ok]).dEmpty = false ∧ DirtyOrdered (tTwo [.ok, .ok, .ok, .ok]) ∧
    (tTwo [.ok, .ok, .ok, .ok]).answers = List.replicate (2 * dirtyBanks (tTwo [.ok, .ok, .ok, .ok])) .ok ++ [] := by decide

theorem witness_FlushTrafficCounts :
    Ready (tOne [.ok, .ok]) ∧ (tOne [.ok, .ok]).dEmpty = false ∧ DirtyOrdered (tOne [.ok, .ok]) ∧
    ∃ t, exec .flush (tOne [.ok, .ok]) = .next t ∧ t.responses = (tOne [.ok, .ok]).responses ++ [⟨.ok, false⟩] :=
  ⟨by decide, by decide, by decide, _, rfl, by decide⟩

theorem witness_ACompletedFlushCopiesTheRegionToTheDisplay :
    Ready (tOne [.ok, .ok]) ∧ (tOne [.ok, .ok]).ctl.h = false ∧ (tOne [.ok, .ok]).dEmpty = false ∧
    (∃ t, exec .flush (tOne [.ok, .ok]) = .next t ∧ t.responses = (tOne [.ok, .ok]).responses ++ [⟨.ok, false⟩]) ∧
    InRegion (tOne [.ok, .ok]) 0 10 ∧ ¬ InRegion (tOne [.ok, .ok]) 5 83 :=
  ⟨by decide, by decide, by decide, ⟨_, rfl, by decide⟩, by decide, by decide⟩

theorem witness_FlushKeepsTheRegionUnlessItCompletes :
    Ready (tTwo [.ok, .err 1]) ∧ (tTwo [.ok, .err 1]).ctl.h = false ∧ (tTwo [.ok, .err 1]).dEmpty = false := by decide

theorem witness_ASecondFlushIsSilent :
    Ready (tOne [.ok, .ok]) ∧
    (∃ t, exec .flush (tOne [.ok, .ok]) = .next t ∧ t.responses = (tOne [.ok, .ok]).responses ++ [⟨.ok, false⟩]) ∧
    Ready tUp ∧ (∃ t, exec .flush tUp = .next t ∧ t.responses = tUp.responses ++ [⟨.ok, false⟩]) :=
  ⟨by decide, ⟨_, rfl, by decide⟩, by decide, _, rfl, by decide⟩

theorem witness_ClearThenFlushSynchronisesTheWholeDisplay :
    Ready (tOne (List.replicate 12 .ok)) ∧ (tOne (List.replicate 12 .ok)).ctl.h = false := by decide

theorem witness_ARetriedFlushResynchronisesTheRegion :
    Ready (tTwo [.err 1, .ok, .ok, .ok, .ok]) ∧ (tTwo [.err 1, .ok, .ok, .ok, .ok]).ctl.h = false ∧
    (tTwo [.err 1, .ok, .ok, .ok, .ok]).dEmpty = false ∧
    ∃ t u, exec .flush (tTwo [.err 1, .ok, .ok, .ok, .ok]) = .next t ∧ t.responses = [] ++ [⟨.transportError, false⟩] ∧
      exec .flush t = .next u ∧ u.responses = t.responses ++ [⟨.ok, false⟩] :=
  ⟨by decide, by decide, by decide, _, _, rfl, by decide, rfl, by decide⟩

theorem witness_FunctionSetSelectsTheMode :
    (true = true ∨ false = true) ∧ (false = true ∨ true = true) ∧
    (Instr.setBias 4#3).isRequest = false ∧ (∀ pd v h, Instr.setBias 4#3 ≠ .functionSet pd v h) ∧
    ∃ t, exec (.setBias 4#3) tExt = .next t ∧ t.ctl.refusal = false :=
  ⟨by decide, by decide, rfl, by simp, _, rfl, by decide⟩

theorem witness_SetBiasNeedsExtendedMode : tExt.ctl.h = true ∧ tUp.ctl.h = false := by decide

theorem witness_TempControlNeedsExtendedMode : tExt.ctl.h = true ∧ tUp.ctl.h = false := by decide

theorem witness_SetXAndSetVopDifferByTheModeAlone :
    tExt.ctl.h = true ∧ tUp.ctl.h = false ∧ (83#7).toNat ≤ 83 ∧ 83 < (84#7).toNat := by decide

theorem witness_SetYMovesTheBankCounterAlone :
    tUp.ctl.h = false ∧ (5#3).toNat ≤ 5 ∧ tExt.ctl.h = true ∧ 5 < (6#3).toNat ∧ (83#7).toNat ≤ 83 := by decide

theorem witness_DisplayControlNeedsBasicMode : tUp.ctl.h = false ∧ tExt.ctl.h = true := by decide

theorem witness_ADataByteLandsAndTheCountersAdvance :
    tUp.ctl.x.val < 83 ∧ ({ tUp with ctl := { tCtl with x := 83 } } : State).ctl.x.val = 83 := by decide

theorem witness_ADataStreamFillsConsecutiveColumns :
    ({ tCtl with x := 82 } : Ctl).x.val + [0x01#8, 0x02#8].length ≤ 84 ∧ 1 < [0x01#8, 0x02#8].length ∧
    ¬ (0 = ({ tCtl with x := 82 } : Ctl).y.val ∧ ({ tCtl with x := 82 } : Ctl).x.val ≤ 81 ∧ 81 < 84) := by decide

theorem witness_ARefusedByteMarksTheRun :
    (0x24#8 &&& 0xF8#8 = 0x20#8 ∧ (0x24#8).getLsbD 2 = true) ∧ (0x22#8 &&& 0xF8#8 = 0x20#8 ∧ (0x22#8).getLsbD 1 = true) ∧
    (tCtl.h = false ∧ 0x46#8 &&& 0xF8#8 = 0x40#8 ∧ 5 < ((0x46#8).extractLsb' 0 3).toNat) ∧
    (tCtl.h = false ∧ 0xD4#8 &&& 0x80#8 = 0x80#8 ∧ 83 < ((0xD4#8).extractLsb' 0 7).toNat) ∧
    decodeCommand tCtl.h 0x14#8 = .reservedByte 0x14#8 ∧
    ({ tUp with ctl := { tCtl with refusal := true } } : State).ctl.refusal = true ∧
    (∃ t, exec .nop { tUp with ctl := { tCtl with refusal := true } } = .next t) :=
  ⟨by decide, by decide, by decide, by decide, by decide, by decide, _, rfl⟩

theorem witness_AMarkedRunTakesNoStep :
    ((tByte tUp .low 0x14#8).ctl.refusal = false ∧ (tByte tUp .low 0x14#8).busIn = 0x14#8 :: [] ∧
      (tByte tUp .low 0x14#8).cs = .low ∧ (tByte tUp .low 0x14#8).dc = .low ∧
      decodeCommand (tByte tUp .low 0x14#8).ctl.h 0x14#8 = .reservedByte 0x14#8) ∧
    ({ tUp with ctl := { tCtl with refusal := true } } : State).ctl.refusal = true := by decide

theorem witness_TheGlassShowsTheDisplayMode :
    (({ tCtl with d := false } : Ctl).d = false ∧ tCtl.e = false) ∧ (tCtl.d = true ∧ tCtl.e = false) ∧
    (({ tCtl with d := false, e := true } : Ctl).d = false ∧ ({ tCtl with d := false, e := true } : Ctl).e = true) ∧
    ({ tCtl with e := true } : Ctl).e = true ∧ (Config.pixelOnDark = true ∨ Config.pixelOnDark = false) :=
  ⟨by decide, by decide, by decide, by decide, by cases Config.pixelOnDark <;> simp⟩

end Sys2Proof.Machine
end

section
/-! The block's registers: which request writes which, the sticky FAULT, and the invariant every step keeps
(10_state.md). -/

namespace Sys2Proof.Machine

/-! ## The five requests -/

/-- The rows of format `REQ32` (R71). -/
theorem Instr.request_cases {i : Instr} (h : i.isRequest = true) :
    (∃ inv contrast, i = .init inv contrast) ∨ (∃ x y on, i = .setPixel x y on) ∨ i = .clear ∨
      (∃ x y, i = .readPixel x y) ∨ i = .flush := by
  cases i <;> simp [Instr.isRequest] at h ⊢

/-- INIT is let run by a block that has not had one (R242). -/
theorem admission_init_eq_none {p : Phase} : admission true p = none ↔ p = .uninit := by
  cases p <;> simp [admission]

/-- Every other request is let run once an INIT completed (R242). -/
theorem admission_other_eq_none {p : Phase} : admission false p = none ↔ p = .ready := by
  cases p <;> simp [admission]

/-! ## What each request may write -/

/-- INIT writes the phase, the latches, and what its bus events touch: not `fb`, the dirty registers, FAULT
or the inputs (R121). -/
theorem runInit_frame (inv : Bool) (contrast : BitVec 7) (s : State) :
    runInit inv contrast s = { s with
      phase := (runInit inv contrast s).phase
      cfgInv := inv, cfgContrast := contrast
      rst := (runInit inv contrast s).rst, cs := (runInit inv contrast s).cs, dc := (runInit inv contrast s).dc
      trace := (runInit inv contrast s).trace, responses := (runInit inv contrast s).responses
      ctl := (runInit inv contrast s).ctl
      answers := (runInit inv contrast s).answers, transportDraws := (runInit inv contrast s).transportDraws } := by
  obtain ⟨t, hb, -, ⟨-, he⟩ | ⟨-, he⟩⟩ := runInit_cases inv contrast s <;> rw [he, hb.eq] <;> rfl

/-- SET_PIXEL writes `fb`, the dirty registers and the response port (R141). -/
theorem runSetPixel_frame (x y : Int) (on : Bool) (s : State) :
    runSetPixel x y on s = { s with
      fb := (runSetPixel x y on s).fb, dEmpty := (runSetPixel x y on s).dEmpty
      dBmin := (runSetPixel x y on s).dBmin, dBmax := (runSetPixel x y on s).dBmax
      dCmin := (runSetPixel x y on s).dCmin, dCmax := (runSetPixel x y on s).dCmax
      responses := (runSetPixel x y on s).responses } := by
  unfold runSetPixel
  cases locate x y with
  | none => rfl
  | some p => dsimp only; rw [State.extendDirty_eq]; rfl

/-- FLUSH writes `D_EMPTY` and what its transactions touch: not `fb`, the bounds or the reset line (R171). -/
theorem runFlush_frame (s : State) :
    runFlush s = { s with
      dEmpty := (runFlush s).dEmpty
      cs := (runFlush s).cs, dc := (runFlush s).dc
      trace := (runFlush s).trace, responses := (runFlush s).responses
      ctl := (runFlush s).ctl
      answers := (runFlush s).answers, transportDraws := (runFlush s).transportDraws } := by
  obtain ⟨-, he⟩ | ⟨-, t, hb, ht, h⟩ := runFlush_cases s
  · rw [he]; rfl
  · have hrst : t.rst = s.rst := by rw [ht, flushOps_rst]
    obtain ⟨-, he⟩ | ⟨-, he⟩ := h <;> rw [he, hb.eq, hrst] <;> rfl

/-- Settles O20: a controller instruction writes the controller, a raised fault FAULT, and a request that runs what its
frame names. -/
theorem eachRegisterHasItsWriters : Obligations.EachRegisterHasItsWriters := by
  unfold Obligations.EachRegisterHasItsWriters
  intro i s t h
  obtain ⟨-, rfl⟩ | ⟨hi, -, ⟨reason, -, rfl⟩ | ⟨-, rfl⟩⟩ := exec_next h
  · simp
  · simp [hi]
  · obtain ⟨inv, contrast, rfl⟩ | ⟨x, y, on, rfl⟩ | rfl | ⟨x, y, rfl⟩ | rfl := Instr.request_cases hi
    · rw [requestEffect, runInit_frame]; simp [Instr.isRequest]
    · rw [requestEffect, runSetPixel_frame]; simp [Instr.isRequest]
    · simp [requestEffect, runClear, Instr.isRequest]
    · simp [requestEffect, runReadPixel, Instr.isRequest]
    · rw [requestEffect, runFlush_frame]; simp [Instr.isRequest]

/-! ## FAULT -/

/-- A halted block runs no request, so what answers next is a controller instruction (R28). -/
theorem exec_faultReg_of_halted {i : Instr} {s t : State} (hf : s.faultReg ≠ none) (h : exec i s = .next t) :
    t.faultReg = s.faultReg := by
  obtain ⟨-, rfl⟩ | ⟨-, hnone, -⟩ := exec_next h
  · rfl
  · exact absurd hnone hf

theorem step_halted {s : State} {r : FaultRecord} (hm : s.ctl.refusal = false) (hb : s.busIn = [])
    (hf : s.faultReg = some r) : step s = .fault (.halted r) := by
  simp [step, fetch, hm, hb, hf]

/-- Settles O14, each clause by the rule of the operation it names. -/
theorem aHaltedBlockTakesNoStep : Obligations.AHaltedBlockTakesNoStep := by
  unfold Obligations.AHaltedBlockTakesNoStep
  refine ⟨rfl, fun s f w => State.raise_faultReg f w s, fun s t i => exec_faultReg_of_halted, fun s => rfl,
    fun s r hf => ⟨fun i hi => ?_, fun hm hb => step_halted hm hb hf⟩⟩
  rw [exec_request hi, admitRequest_halted hf]

/-! ## The invariant under the state's operations -/

theorem BlockInv.takeRequest {s : State} (h : BlockInv s) (rest : List Word) : BlockInv { s with requests := rest } :=
  { h with }

theorem BlockInv.raise {s : State} (h : BlockInv s) (reason : FaultReason) (w : Word) : BlockInv (s.raise reason w) :=
  { h with }

theorem BlockInv.respond {s : State} (h : BlockInv s) (status : Status) (value : Bool) :
    BlockInv (s.respond status value) :=
  { h with }

/-- Emptying the region leaves no bounds to order. -/
theorem BlockInv.clearDirty {s : State} (h : BlockInv s) : BlockInv s.clearDirty :=
  { h with
    dirty := by simp [DirtyOrdered]
    blank := fun hp => ⟨(h.blank hp).1, rfl⟩ }

/-- The latches are bound to the controller's state in READY alone. -/
theorem BlockInv.latch {s : State} (h : BlockInv s) (hp : s.phase = .uninit) (inv : Bool) (contrast : BitVec 7) :
    BlockInv { s with cfgInv := inv, cfgContrast := contrast } :=
  { h with known := by simp [hp] }

theorem DirtyOrdered.extendDirty {s : State} (h : DirtyOrdered s) (p : Pixel) : DirtyOrdered (s.extendDirty p) := by
  intro _
  rw [State.extendDirty_dBmin, State.extendDirty_dBmax, State.extendDirty_dCmin, State.extendDirty_dCmax]
  cases he : s.dEmpty with
  | true => simp
  | false =>
    obtain ⟨hbank, hcol⟩ := h he
    simp only [Bool.false_eq_true, if_false, least_val, greatest_val]
    omega

/-- A pixel's write keeps the framebuffer canonical and the bounds ordered (R141). -/
theorem BlockInv.drawPixel {s : State} (h : BlockInv s) (hp : s.phase = .ready) (p : Pixel) (on : Bool) :
    BlockInv ((s.putPixel p on).extendDirty p) where
  fbWf := by simpa using fbWrite_wf h.fbWf p.addr_lt _
  ramWf := by simpa using h.ramWf
  dirty := DirtyOrdered.extendDirty (s := s.putPixel p on) h.dirty p
  blank := by simp [hp]
  known := by simpa using h.known
  released := by simpa using h.released
  deselected := by simpa using h.deselected
  unmarked := by simpa using h.unmarked
  alone := by simpa using h.alone

/-- CLEAR's framebuffer is the empty list and its region the whole of it (R150). -/
theorem BlockInv.clearAll {s : State} (h : BlockInv s) (hp : s.phase = .ready) :
    BlockInv ({ s with fb := [] }.allDirty) :=
  { h with
    fbWf := Memory.nil_wf
    dirty := by simp [DirtyOrdered]
    blank := by simp [hp] }

/-! ## The invariant under the bus walks -/

/-- The known addressable state is a matter of settings, which no address command and no data byte touches (R177, R225). -/
theorem Known.of_sameSettings {c c' : Ctl} {inv : Bool} {contrast : BitVec 7} (h : Known c inv contrast)
    (hs : c.SameSettings c') : Known c' inv contrast := by
  obtain ⟨hh, hpd, hv, hbs, hvop, -, hd, he, -, -⟩ := hs
  simpa only [Known, hh, hpd, hv, hbs, hvop, hd, he] using h

/-- The refusal mark is one of the settings. -/
theorem Ctl.SameSettings.refusal {c c' : Ctl} (hs : c.SameSettings c') : c'.refusal = c.refusal := by
  obtain ⟨-, -, -, -, -, -, -, -, hr, -⟩ := hs
  exact hr

/-- A FLUSH's walk, however it ends, moves address counters and display RAM bytes alone (R177). -/
theorem BlockInv.flushWalk {s : State} (h : BlockInv s) (hp : s.phase = .ready) :
    BlockInv (runOps (flushOps s) s).2 := by
  have hb := runOps_busOnly (flushOps s) s
  obtain ⟨hbasic, -⟩ := h.known hp
  have hw := flushOps_walk s hbasic
  constructor
  case fbWf => rw [hb.fb]; exact h.fbWf
  case ramWf => exact hw.ramWf h.ramWf
  case dirty => simpa only [DirtyOrdered, hb.dEmpty, hb.dBmin, hb.dBmax, hb.dCmin, hb.dCmax] using h.dirty
  case blank => simp [hb.phase, hp]
  case known =>
    intro _
    rw [hb.cfgInv, hb.cfgContrast]
    exact (h.known hp).of_sameSettings hw.same
  case released => intro _; rw [flushOps_rst]; exact h.released (by simp [hp])
  case deselected => exact runOps_cs h.deselected
  case unmarked => rw [hw.same.refusal]; exact h.unmarked
  case alone => rw [hb.busIn]; exact h.alone

/-- An INIT's walk, with the phase the block then takes: FAILED however the walk ended, any other phase when every event was
accepted (R121, R126). -/
theorem BlockInv.initWalk {s : State} (h : BlockInv s) (hp : s.phase = .uninit) {phase : Phase}
    (hok : phase ≠ .failed → (runOps (initOps s.cfgInv s.cfgContrast) s).1 = .ok) :
    BlockInv { (runOps (initOps s.cfgInv s.cfgContrast) s).2 with phase := phase } := by
  have hb := runOps_busOnly (initOps s.cfgInv s.cfgContrast) s
  obtain ⟨⟨hmark, hram⟩, hend⟩ := initOps_walk s.cfgInv s.cfgContrast false True s ⟨h.unmarked, fun _ => h.ramWf⟩
  obtain ⟨hfb, hempty⟩ := h.blank (by simp [hp])
  constructor
  case fbWf => show Memory.wf (runOps _ s).2.fb; rw [hb.fb]; exact h.fbWf
  case ramWf => exact hram trivial
  case dirty => simp [DirtyOrdered, hb.dEmpty, hempty]
  case blank => exact fun _ => ⟨hb.fb.trans hfb, hb.dEmpty.trans hempty⟩
  case known =>
    intro hready
    show Known _ (runOps _ s).2.cfgInv (runOps _ s).2.cfgContrast
    rw [hb.cfgInv, hb.cfgContrast]
    exact (hend (hok (by rw [show phase = .ready from hready]; simp))).1
  case released => exact fun hne => (hend (hok hne)).2.1
  case deselected => exact runOps_cs h.deselected
  case unmarked => exact hmark
  case alone => exact hb.busIn.trans h.alone

/-! ## The invariant under the requests -/

theorem BlockInv.runInit {s : State} (h : BlockInv s) (hp : s.phase = .uninit) (inv : Bool) (contrast : BitVec 7) :
    BlockInv (runInit inv contrast s) := by
  have hl := h.latch hp inv contrast
  obtain ⟨t, -, rfl, ⟨hr, he⟩ | ⟨-, he⟩⟩ := runInit_cases inv contrast s <;> rw [he]
  · exact (hl.initWalk hp fun _ => hr).respond _ _
  · exact (hl.initWalk hp fun hne => absurd rfl hne).respond _ _

theorem BlockInv.runSetPixel {s : State} (h : BlockInv s) (hp : s.phase = .ready) (x y : Int) (on : Bool) :
    BlockInv (runSetPixel x y on s) := by
  unfold Machine.runSetPixel
  cases locate x y with
  | none => exact h.respond _ _
  | some p => exact (h.drawPixel hp p on).respond _ _

theorem BlockInv.runFlush {s : State} (h : BlockInv s) (hp : s.phase = .ready) : BlockInv (runFlush s) := by
  obtain ⟨-, he⟩ | ⟨-, t, -, rfl, ⟨-, he⟩ | ⟨-, he⟩⟩ := runFlush_cases s <;> rw [he]
  · exact h.respond _ _
  · exact (h.flushWalk hp).clearDirty.respond _ _
  · exact (h.flushWalk hp).respond _ _

/-- Every request keeps the invariant in the phase that admits it. -/
theorem BlockInv.requestEffect {i : Instr} {s : State} (h : BlockInv s) (hi : i.isRequest = true)
    (ha : admission (isInit i) s.phase = none) : BlockInv (requestEffect i s) := by
  obtain ⟨inv, contrast, rfl⟩ | ⟨x, y, on, rfl⟩ | rfl | ⟨x, y, rfl⟩ | rfl := Instr.request_cases hi
  · exact h.runInit (admission_init_eq_none.1 ha) inv contrast
  · exact h.runSetPixel (admission_other_eq_none.1 ha) x y on
  · exact (h.clearAll (admission_other_eq_none.1 ha)).respond _ _
  · exact h.respond _ _
  · exact h.runFlush (admission_other_eq_none.1 ha)

theorem BlockInv.exec {i : Instr} {s t : State} (h : BlockInv s) (hi : i.isRequest = true) (ht : exec i s = .next t) :
    BlockInv t := by
  obtain ⟨hc, -⟩ | ⟨-, -, ⟨reason, -, rfl⟩ | ⟨ha, rfl⟩⟩ := exec_next ht
  · rw [hi] at hc; cases hc
  · exact h.raise _ _
  · exact h.requestEffect hi ha

/-- Settles O18: with no bench byte a step waits, raises on an illegal word, or runs a request, and each keeps the
invariant. -/
theorem everyStepKeepsTheBlockInvariant : Obligations.EveryStepKeepsTheBlockInvariant := by
  unfold Obligations.EveryStepKeepsTheBlockInvariant
  intro s t h hstep
  obtain ⟨-, ⟨b, rest, hbus, -⟩ | ⟨-, -, ⟨-, rfl⟩ | ⟨w, rest, -, rfl | ⟨i, hi, hx⟩⟩⟩⟩ := step_cases hstep
  · rw [h.alone] at hbus; cases hbus
  · exact h
  · exact (h.takeRequest rest).raise _ _
  · exact (h.takeRequest rest).exec hi hx

end Sys2Proof.Machine
end

section
/-! The framebuffer and the display: the block never reads the controller, and a completed FLUSH copies the dirty region
to the display RAM (20_memory.md). -/

namespace Sys2Proof.Machine

/-! ## What the block does without the controller -/

/-- The same block with the controller `c` in its controller's place. -/
def State.withCtl (c : Ctl) (s : State) : State := { s with ctl := c }

/-- `s'` is `s` with any controller in its place: all the block itself holds is the same (R55). -/
def SameBlock (s s' : State) : Prop := ∃ c : Ctl, s' = s.withCtl c

/-- The controller is not what answers a bus event (R101, R104). -/
@[simp] theorem nextAnswer_withCtl (s : State) (c : Ctl) : nextAnswer (s.withCtl c) = nextAnswer s := rfl

theorem State.takeAnswer_withCtl (s : State) (c : Ctl) : (s.withCtl c).takeAnswer = s.takeAnswer.withCtl c := by
  unfold State.takeAnswer State.withCtl; cases s.answers <;> rfl

theorem State.extendDirty_withCtl (p : Pixel) (s : State) (c : Ctl) :
    (s.withCtl c).extendDirty p = (s.extendDirty p).withCtl c := by
  unfold State.extendDirty State.withCtl; split <;> rfl

theorem SameBlock.txn {s s' : State} (h : SameBlock s s') (dc : BusMode) (bytes : List Byte) :
    SameBlock (txn dc bytes s).2 (txn dc bytes s').2 := by
  obtain ⟨c, rfl⟩ := h
  rw [txn_state, txn_state, State.takeAnswer_withCtl]
  exact ⟨_, rfl⟩

theorem SameBlock.pinSet {s s' : State} (h : SameBlock s s') (l : Level) :
    SameBlock (pinSet l s).2 (pinSet l s').2 := by
  obtain ⟨c, rfl⟩ := h
  cases ha : nextAnswer s with
  | ok => rw [pinSet_ok ha, pinSet_ok (by simpa using ha), State.takeAnswer_withCtl]; exact ⟨_, rfl⟩
  | err k => rw [pinSet_err ha, pinSet_err (by simpa using ha), State.takeAnswer_withCtl]; exact ⟨_, rfl⟩

/-- The transport's verdict on an operation is not the controller's to give (R101, R104). -/
theorem SameBlock.runOp_result {s s' : State} (h : SameBlock s s') (op : BusOp) :
    (runOp op s').1 = (runOp op s).1 := by
  obtain ⟨c, rfl⟩ := h
  rw [Machine.runOp_result, Machine.runOp_result, nextAnswer_withCtl]

theorem SameBlock.runOp {s s' : State} (h : SameBlock s s') (op : BusOp) :
    SameBlock (runOp op s).2 (runOp op s').2 := by
  cases op with
  | pin l => exact h.pinSet l
  | txn dc bytes => exact h.txn dc bytes

/-- A walk ends at the same operation, with the same verdict, whatever the controller. -/
theorem SameBlock.runOps {s s' : State} (h : SameBlock s s') (ops : List BusOp) :
    (runOps ops s').1 = (runOps ops s).1 ∧ SameBlock (runOps ops s).2 (runOps ops s').2 := by
  induction ops generalizing s s' with
  | nil => exact ⟨rfl, h⟩
  | cons op rest ih =>
    have hr := h.runOp_result op
    cases ho : (Machine.runOp op s).1 with
    | ok => rw [runOps_cons_ok ho, runOps_cons_ok (hr.trans ho)]; exact ih (h.runOp op)
    | err => rw [runOps_cons_err ho, runOps_cons_err (hr.trans ho)]; exact ⟨rfl, h.runOp op⟩

/-- An ending that does not read the controller, after a walk. -/
theorem SameBlock.walkEnd {finish : TransportResult × State → State}
    (hfinish : ∀ r s c, finish (r, State.withCtl c s) = (finish (r, s)).withCtl c) {s s' : State} (h : SameBlock s s')
    (ops : List BusOp) : SameBlock (finish (Machine.runOps ops s)) (finish (Machine.runOps ops s')) := by
  obtain ⟨hr, hw⟩ := h.runOps ops
  generalize Machine.runOps ops s = p at *
  generalize Machine.runOps ops s' = p' at *
  obtain ⟨r, t⟩ := p
  obtain ⟨r', t'⟩ := p'
  obtain ⟨c, rfl⟩ := hw
  obtain rfl : r' = r := hr
  exact ⟨c, hfinish r' t c⟩

theorem initEnd_withCtl (r : TransportResult) (s : State) (c : Ctl) :
    initEnd (r, s.withCtl c) = (initEnd (r, s)).withCtl c := by
  cases r <;> rfl

theorem flushEnd_withCtl (r : TransportResult) (s : State) (c : Ctl) :
    flushEnd (r, s.withCtl c) = (flushEnd (r, s)).withCtl c := by
  cases r <;> rfl

/-! ## What the requests do without the controller -/

theorem SameBlock.runInit {s s' : State} (h : SameBlock s s') (inv : Bool) (contrast : BitVec 7) :
    SameBlock (runInit inv contrast s) (runInit inv contrast s') := by
  obtain ⟨c, rfl⟩ := h
  have hlatched : SameBlock { s with cfgInv := inv, cfgContrast := contrast }
      { s.withCtl c with cfgInv := inv, cfgContrast := contrast } := ⟨c, rfl⟩
  exact hlatched.walkEnd initEnd_withCtl (initOps inv contrast)

theorem SameBlock.runSetPixel {s s' : State} (h : SameBlock s s') (x y : Int) (on : Bool) :
    SameBlock (runSetPixel x y on s) (runSetPixel x y on s') := by
  obtain ⟨c, rfl⟩ := h
  unfold Machine.runSetPixel
  cases locate x y with
  | none => exact ⟨c, rfl⟩
  | some p => exact ⟨c, congrArg (State.respond .ok false) (State.extendDirty_withCtl p (s.putPixel p on) c)⟩

theorem runFlush_of_clean {s : State} (h : s.dEmpty = true) : runFlush s = s.respond .ok false := by
  simp [runFlush, h]

theorem runFlush_of_dirty {s : State} (h : s.dEmpty = false) : runFlush s = flushEnd (runOps (flushOps s) s) := by
  simp [runFlush, h]

/-- The bytes FLUSH sends are the framebuffer's, and its region the block's own (R171). -/
theorem flushOps_withCtl (s : State) (c : Ctl) : flushOps (s.withCtl c) = flushOps s := rfl

theorem SameBlock.runFlush {s s' : State} (h : SameBlock s s') : SameBlock (runFlush s) (runFlush s') := by
  have hend := h.walkEnd flushEnd_withCtl (flushOps s)
  obtain ⟨c, rfl⟩ := h
  cases hd : s.dEmpty with
  | true => rw [runFlush_of_clean hd, runFlush_of_clean (s := s.withCtl c) hd]; exact ⟨c, rfl⟩
  | false => rw [runFlush_of_dirty hd, runFlush_of_dirty (s := s.withCtl c) hd, flushOps_withCtl]; exact hend

theorem SameBlock.requestEffect {i : Instr} {s s' : State} (h : SameBlock s s') (hi : i.isRequest = true) :
    SameBlock (requestEffect i s) (requestEffect i s') := by
  obtain ⟨inv, contrast, rfl⟩ | ⟨x, y, on, rfl⟩ | rfl | ⟨x, y, rfl⟩ | rfl := Instr.request_cases hi
  · exact h.runInit inv contrast
  · exact h.runSetPixel x y on
  · obtain ⟨c, rfl⟩ := h; exact ⟨c, rfl⟩
  · obtain ⟨c, rfl⟩ := h; exact ⟨c, rfl⟩
  · exact h.runFlush

/-- Settles O23: admission reads FAULT and PHASE, and each request's effect keeps two blocks that differ in the controller
alone the same. -/
theorem theControllerNeverInfluencesTheBlock : Obligations.TheControllerNeverInfluencesTheBlock := by
  unfold Obligations.TheControllerNeverInfluencesTheBlock
  intro i s t c hi h
  obtain ⟨hc, -⟩ | ⟨-, hf, ⟨reason, ha, rfl⟩ | ⟨ha, rfl⟩⟩ := exec_next h
  · rw [hi] at hc; cases hc
  · exact ⟨c, by rw [exec_request hi]; exact admitRequest_raises (s := s.withCtl c) hf ha _⟩
  · obtain ⟨c', hc'⟩ := SameBlock.requestEffect (s := s) ⟨c, rfl⟩ hi
    exact ⟨c', by
      rw [exec_request hi]
      exact (admitRequest_runs (s := s.withCtl c) hf ha _).trans (congrArg _ hc')⟩

/-! ## The display after a completed FLUSH -/

/-- The addresses of the dirty banks' dirty columns are those of the region (R27, R50). -/
theorem exists_inBank_iff {s : State} {b c : Nat} (hc : c < 84) :
    (∃ b' ∈ ascending s.dBmin.val s.dBmax.val, InBank s b' (cellAddr b c)) ↔ InRegion s b c := by
  simp only [ascending_mem, InBank, cellAddr, InRegion, Config.cols]
  have hmax := s.dCmax.isLt
  constructor
  · rintro ⟨b', hb, ha⟩
    obtain rfl : b' = b := by omega
    omega
  · rintro ⟨hb, hcol⟩
    exact ⟨b, hb, by omega⟩

/-- FLUSH responds OK for a dirty region only when its whole walk was accepted (R171, R176). -/
theorem runOps_flushOps_of_respond_ok {s : State} (hd : s.dEmpty = false)
    (hok : (runFlush s).responses = s.responses ++ [⟨.ok, false⟩]) :
    (runOps (flushOps s) s).1 = .ok ∧ (runFlush s).ctl = (runOps (flushOps s) s).2.ctl := by
  obtain ⟨he, -⟩ | ⟨-, t, hb, rfl, ⟨hr, he⟩ | ⟨-, he⟩⟩ := runFlush_cases s
  · rw [hd] at he; cases he
  · exact ⟨hr, by rw [he]; rfl⟩
  · rw [he, State.respond_responses, hb.responses] at hok
    simp at hok

/-- After a FLUSH that responds OK the display RAM is the framebuffer's copy in the region, and as before outside it (R175). -/
theorem runFlush_dram_of_respond_ok {s : State} (hh : s.ctl.h = false) (hd : s.dEmpty = false)
    (hok : (runFlush s).responses = s.responses ++ [⟨.ok, false⟩]) {b c : Nat} (hc : c < 84) :
    (InRegion s b c → (runFlush s).ctl.dram b c = fbRead s.fb (cellAddr b c)) ∧
      (¬ InRegion s b c → (runFlush s).ctl.dram b c = s.ctl.dram b c) := by
  obtain ⟨hr, hctl⟩ := runOps_flushOps_of_respond_ok hd hok
  rw [hctl, ← exists_inBank_iff hc]
  exact (flushOps_walk s hh).all_written hr (cellAddr b c)

/-- The region CLEAR marks is the whole display (R150). -/
theorem runClear_inRegion (s : State) {b c : Nat} (hb : b < 6) (hc : c < 84) : InRegion (runClear s) b c := by
  simp [InRegion, runClear]; omega

theorem fbRead_runClear (s : State) (a : Nat) : fbRead (runClear s).fb a = 0#8 := rfl

/-- Settles O44: CLEAR makes every byte 0 and the region the whole display, and the completed FLUSH copies the region. -/
theorem clearThenFlushSynchronisesTheWholeDisplay : Obligations.ClearThenFlushSynchronisesTheWholeDisplay := by
  unfold Obligations.ClearThenFlushSynchronisesTheWholeDisplay
  intro s hs hh
  have hready : Ready (runClear s) := hs
  refine ⟨runClear s, runFlush (runClear s), exec_ready hs rfl rfl, exec_ready hready rfl rfl, fun hok b c hb hc => ?_⟩
  have hfb : (runFlush (runClear s)).fb = (runClear s).fb := by rw [runFlush_frame]
  have hcopy := (runFlush_dram_of_respond_ok (s := runClear s) hh rfl hok hc).1 (runClear_inRegion s hb hc)
  rw [hfb, hcopy, fbRead_runClear]
  exact ⟨rfl, rfl⟩

end Sys2Proof.Machine
end

section
/-! The encoding: the decoder and the encoder are inverse to each other, and both follow the tables of
30_encoding.md. -/

namespace Sys2Proof

/-! ## Fields of a word -/

/-- A range of a word is two joined fields just when each part of the range is its field. -/
theorem extractLsb'_eq_append_iff {n v k s : Nat} {x : BitVec v} {y : BitVec k} {z : BitVec n} :
    z.extractLsb' s (v + k) = x ++ y ↔ z.extractLsb' (s + k) v = x ∧ z.extractLsb' s k = y := by
  have hsplit : z.extractLsb' (s + k) v ++ z.extractLsb' s k = z.extractLsb' s (v + k) :=
    BitVec.extractLsb'_append_extractLsb'_eq_extractLsb' rfl
  constructor
  · intro h
    rw [← hsplit] at h
    have hl := congrArg (BitVec.extractLsb' k v) h
    have hr := congrArg (BitVec.extractLsb' 0 k) h
    simp only [BitVec.extractLsb'_append_eq_left, BitVec.extractLsb'_append_eq_right] at hl hr
    exact ⟨hl, hr⟩
  · rintro ⟨rfl, rfl⟩
    exact hsplit.symm

/-- The same for a whole word. -/
theorem append_eq_iff {v k : Nat} {x : BitVec v} {y : BitVec k} {z : BitVec (v + k)} :
    x ++ y = z ↔ z.extractLsb' k v = x ∧ z.extractLsb' 0 k = y := by
  have h := extractLsb'_eq_append_iff (x := x) (y := y) (z := z) (s := 0)
  rwa [BitVec.extractLsb'_eq_self, Nat.zero_add, eq_comm] at h

/-- A field of one bit. -/
theorem extractLsb'_one_eq_ofBool_iff {n s : Nat} {z : BitVec n} {b : Bool} :
    z.extractLsb' s 1 = BitVec.ofBool b ↔ z.getLsbD s = b := by
  rw [BitVec.getLsbD_eq_extractLsb']
  generalize z.extractLsb' s 1 = f
  revert f b
  decide

/-- A field that a mask covers is the row's own. -/
theorem extractLsb'_eq_of_and_eq {n : Nat} {w mask row : BitVec n} (h : w &&& mask = row) {s l : Nat}
    (hmask : mask.extractLsb' s l = BitVec.allOnes l) : w.extractLsb' s l = row.extractLsb' s l := by
  rw [← h, BitVec.extractLsb'_and, hmask, BitVec.and_allOnes]

/-- Bits 27:24 are the three zero bits and `ON` (R70). -/
theorem extractLsb'_24_4_eq_zero_iff {w : Word} :
    w.extractLsb' 24 4 = 0#4 ↔ reqZero w = 0#3 ∧ reqOn w = false := by
  have h := extractLsb'_eq_append_iff (x := 0#3) (y := BitVec.ofBool false) (z := w) (s := 24)
  rwa [extractLsb'_one_eq_ofBool_iff] at h

/-! ## The word of each request, field by field (R70) -/

theorem encode_init_eq_iff {inv : Bool} {contrast : BitVec 7} {w : Word} :
    encode (.init inv contrast) = .request w ↔
      w.extractLsb' 28 4 = 1#4 ∧ w.extractLsb' 9 19 = 0#19 ∧ w.getLsbD 8 = inv ∧ w.getLsbD 7 = false ∧
        w.extractLsb' 0 7 = contrast := by
  rw [encode, Code.request.injEq, append_eq_iff (v := 4 + 19 + 1 + 1),
    show (0#1) = BitVec.ofBool false from rfl]
  simp only [extractLsb'_eq_append_iff, extractLsb'_one_eq_ofBool_iff, and_assoc]

theorem encode_setPixel_eq_iff {x y : Int} {on : Bool} {w : Word} :
    encode (.setPixel x y on) = .request w ↔
      w.extractLsb' 28 4 = 2#4 ∧ w.extractLsb' 25 3 = 0#3 ∧ w.getLsbD 24 = on ∧
        w.extractLsb' 12 12 = coordBits y ∧ w.extractLsb' 0 12 = coordBits x := by
  rw [encode, Code.request.injEq, append_eq_iff (v := 4 + 3 + 1 + 12)]
  simp only [extractLsb'_eq_append_iff, extractLsb'_one_eq_ofBool_iff, and_assoc]

theorem encode_clear_eq_iff {w : Word} :
    encode .clear = .request w ↔ w.extractLsb' 28 4 = 3#4 ∧ w.extractLsb' 0 28 = 0#28 := by
  rw [encode, Code.request.injEq, append_eq_iff]

theorem encode_readPixel_eq_iff {x y : Int} {w : Word} :
    encode (.readPixel x y) = .request w ↔
      w.extractLsb' 28 4 = 4#4 ∧ w.extractLsb' 24 4 = 0#4 ∧ w.extractLsb' 12 12 = coordBits y ∧
        w.extractLsb' 0 12 = coordBits x := by
  rw [encode, Code.request.injEq, append_eq_iff (v := 4 + 4 + 12)]
  simp only [extractLsb'_eq_append_iff, and_assoc]

theorem encode_flush_eq_iff {w : Word} :
    encode .flush = .request w ↔ w.extractLsb' 28 4 = 5#4 ∧ w.extractLsb' 0 28 = 0#28 := by
  rw [encode, Code.request.injEq, append_eq_iff]

/-! ## The decoder and the encoder are inverse -/

/-- The coordinates that two fields give make a pixel's request well-formed (R73). -/
theorem coordFits_pair_toInt (x y : BitVec 12) : (coordFits x.toInt && coordFits y.toInt) = true := by
  rw [coordFits_toInt, coordFits_toInt, Bool.and_self]

/-- What a line of the request table answers: its request where the zero bits are 0. -/
theorem and_eq_of_ite_eq_instr {p : Prop} [Decidable p] {i j : Instr} {w : Word}
    (h : (if p then Decoded.instr j else .illegalRequest w) = .instr i) : p ∧ j = i := by
  split at h
  · next hp => exact ⟨hp, by injection h⟩
  · cases h

theorem encode_of_decodeRequest {w : Word} {i : Instr} (h : decodeRequest w = .instr i) :
    encode i = .request w ∧ i.wf = true := by
  unfold decodeRequest at h
  split at h
  · next hop =>
    obtain ⟨⟨hzero, hbit⟩, rfl⟩ := and_eq_of_ite_eq_instr h
    exact ⟨encode_init_eq_iff.2 ⟨hop, hzero, rfl, hbit, rfl⟩, rfl⟩
  split at h
  · next hop =>
    obtain ⟨hzero, rfl⟩ := and_eq_of_ite_eq_instr h
    exact ⟨encode_setPixel_eq_iff.2 ⟨hop, hzero, rfl, (coordBits_toInt _).symm, (coordBits_toInt _).symm⟩,
      coordFits_pair_toInt _ _⟩
  split at h
  · next hop =>
    obtain ⟨hzero, rfl⟩ := and_eq_of_ite_eq_instr h
    exact ⟨encode_clear_eq_iff.2 ⟨hop, hzero⟩, rfl⟩
  split at h
  · next hop =>
    obtain ⟨hzero, rfl⟩ := and_eq_of_ite_eq_instr h
    exact ⟨encode_readPixel_eq_iff.2
      ⟨hop, extractLsb'_24_4_eq_zero_iff.2 hzero, (coordBits_toInt _).symm, (coordBits_toInt _).symm⟩,
      coordFits_pair_toInt _ _⟩
  split at h
  · next hop =>
    obtain ⟨hzero, rfl⟩ := and_eq_of_ite_eq_instr h
    exact ⟨encode_flush_eq_iff.2 ⟨hop, hzero⟩, rfl⟩
  · cases h

theorem decodeRequest_of_encode {w : Word} {i : Instr} (h : encode i = .request w) (hwf : i.wf = true) :
    decodeRequest w = .instr i := by
  cases i with
  | init inv contrast =>
    obtain ⟨hop, hzero, hinv, hbit, hcontrast⟩ := encode_init_eq_iff.1 h
    simp [decodeRequest, reqOp, reqInv, reqContrast, hop, hzero, hinv, hbit, hcontrast, -BitVec.getLsbD_eq_getElem]
  | setPixel x y on =>
    obtain ⟨hop, hzero, hon, hy, hx⟩ := encode_setPixel_eq_iff.1 h
    obtain ⟨hfx, hfy⟩ : coordFits x = true ∧ coordFits y = true := by simpa [Instr.wf] using hwf
    simp [decodeRequest, reqOp, reqZero, reqOn, reqX, reqY, hop, hzero, hon, hy, hx, toInt_coordBits hfx,
      toInt_coordBits hfy, -BitVec.getLsbD_eq_getElem]
  | clear =>
    obtain ⟨hop, hzero⟩ := encode_clear_eq_iff.1 h
    simp [decodeRequest, reqOp, hop, hzero]
  | readPixel x y =>
    obtain ⟨hop, hzero, hy, hx⟩ := encode_readPixel_eq_iff.1 h
    obtain ⟨hfx, hfy⟩ : coordFits x = true ∧ coordFits y = true := by simpa [Instr.wf] using hwf
    simp [decodeRequest, reqOp, reqX, reqY, hop, extractLsb'_24_4_eq_zero_iff.1 hzero, hy, hx, toInt_coordBits hfx,
      toInt_coordBits hfy]
  | flush =>
    obtain ⟨hop, hzero⟩ := encode_flush_eq_iff.1 h
    simp [decodeRequest, reqOp, hop, hzero]
  | _ => cases h

/-- Decoding request words undoes encoding, and only that (R72). -/
theorem decodeRequest_eq_instr_iff {w : Word} {i : Instr} :
    decodeRequest w = .instr i ↔ encode i = .request w ∧ i.wf = true :=
  ⟨encode_of_decodeRequest, fun ⟨h, hwf⟩ => decodeRequest_of_encode h hwf⟩

/-- A word that is no request's code is illegal (R90). -/
theorem decodeRequest_eq_illegal {w : Word} (h : ∀ i : Instr, i.isRequest = true → encode i ≠ .request w) :
    decodeRequest w = .illegalRequest w := by
  obtain ⟨i, hd, hi⟩ | hd := decodeRequest_shape w
  · exact absurd (encode_of_decodeRequest hd).1 (h i hi)
  · exact hd

/-- Of the 256 bytes in either mode, each that decodes is its instruction's own (R80). -/
theorem encode_of_decodeCommand : ∀ (h : Bool) (b : Byte), ∀ i ∈ (decodeCommand h b).instr?,
    encode i = .command b ∧ i.decodedIn h = true := by decide

theorem decodeCommand_of_encode {h : Bool} {b : Byte} {i : Instr} (hb : encode i = .command b)
    (hm : i.decodedIn h = true) : decodeCommand h b = .instr i := by
  cases i with
  | nop => cases hb; revert h; decide
  | functionSet pd v h' => cases hb; revert h pd v h'; decide
  | displayControl d e => cases hb; revert h d e; decide
  | setY y => cases hb; revert h y; decide
  | setX x => cases hb; revert h x; decide
  | tempControl tc => cases hb; revert h tc; decide
  | setBias bs => cases hb; revert h bs; decide
  | setVop vop => cases hb; revert h vop; decide
  | _ => cases hb

theorem Instr.wf_of_encode_command {i : Instr} {b : Byte} (h : encode i = .command b) : i.wf = true := by
  cases i with
  | setPixel | readPixel => cases h
  | _ => rfl

theorem Instr.decodedIn_of_encode_request {i : Instr} {w : Word} (h : encode i = .request w) (m : Bool) :
    i.decodedIn m = true := by
  cases i with
  | setY | setX | tempControl | setBias | setVop => cases h
  | _ => rfl

/-- Decoding undoes encoding, and only that: in a mode, a code decodes to the well-formed instruction of that mode whose
code it is, if there is one (R72, R80, R82). -/
theorem decode_eq_instr_iff {h : Bool} {c : Code} {i : Instr} :
    decode h c = .instr i ↔ encode i = c ∧ i.wf = true ∧ i.decodedIn h = true := by
  cases c with
  | request w =>
    rw [decode, decodeRequest_eq_instr_iff]
    exact ⟨fun ⟨he, hwf⟩ => ⟨he, hwf, Instr.decodedIn_of_encode_request he h⟩, fun ⟨he, hwf, _⟩ => ⟨he, hwf⟩⟩
  | command b =>
    rw [decode]
    constructor
    · intro hd
      obtain ⟨he, hm⟩ := encode_of_decodeCommand h b i (by rw [hd]; rfl)
      exact ⟨he, Instr.wf_of_encode_command he, hm⟩
    · rintro ⟨he, -, hm⟩
      exact decodeCommand_of_encode he hm
  | data b =>
    rw [decode, Decoded.instr.injEq]
    constructor
    · rintro rfl; exact ⟨rfl, rfl, rfl⟩
    · rintro ⟨he, -⟩
      cases i with
      | data v => exact congrArg Instr.data (by injection he with hv; exact hv.symm)
      | _ => cases he

/-- Settles O1, the one direction of `decode_eq_instr_iff`. -/
theorem decodeOfEncodeGivesTheInstructionBack : Obligations.DecodeOfEncodeGivesTheInstructionBack := by
  unfold Obligations.DecodeOfEncodeGivesTheInstructionBack
  intro i h hwf hm
  exact decode_eq_instr_iff.2 ⟨rfl, hwf, hm⟩

/-- Settles O2, the other direction of `decode_eq_instr_iff`. -/
theorem encodeOfDecodeGivesTheCodeBack : Obligations.EncodeOfDecodeGivesTheCodeBack := by
  unfold Obligations.EncodeOfDecodeGivesTheCodeBack
  intro h c i hd
  exact decode_eq_instr_iff.1 hd

/-! ## The match and mask columns -/

/-- A request's own word lies in its row (R72). -/
theorem and_mask_of_request {i : Instr} {w row mask : Word} (hrow : Laws.RowMatch.request (encode i) row mask)
    (h : encode i = .request w) : w &&& mask = row := by
  obtain ⟨w', hw', hmask⟩ := hrow
  rw [h, Code.request.injEq] at hw'
  rw [hw', hmask]

/-- Settles O3: a row's mask covers the fields the row fixes, so a word in it is the code of the row's request; a word
that is a request's code lies in that request's row. -/
theorem requestsDecodeByMatchAndMask : Obligations.RequestsDecodeByMatchAndMask := by
  unfold Obligations.RequestsDecodeByMatchAndMask
  intro w
  refine ⟨fun h => ?_, fun h => ?_, fun h => ?_, fun h => ?_, fun h => ?_, fun h1 h2 h3 h4 h5 => ?_⟩
  · have hbit := (extractLsb'_one_eq_ofBool_iff (b := false)).1 (extractLsb'_eq_of_and_eq h (s := 7) (l := 1) rfl)
    exact decodeRequest_of_encode (encode_init_eq_iff.2
      ⟨extractLsb'_eq_of_and_eq h rfl, extractLsb'_eq_of_and_eq h rfl, rfl, hbit, rfl⟩) rfl
  · exact decodeRequest_of_encode (encode_setPixel_eq_iff.2
      ⟨extractLsb'_eq_of_and_eq h rfl, extractLsb'_eq_of_and_eq h rfl, rfl, (coordBits_toInt _).symm,
        (coordBits_toInt _).symm⟩) (coordFits_pair_toInt _ _)
  · exact decodeRequest_of_encode (encode_clear_eq_iff.2
      ⟨extractLsb'_eq_of_and_eq h rfl, extractLsb'_eq_of_and_eq h rfl⟩) rfl
  · exact decodeRequest_of_encode (encode_readPixel_eq_iff.2
      ⟨extractLsb'_eq_of_and_eq h rfl, extractLsb'_eq_of_and_eq h rfl, (coordBits_toInt _).symm,
        (coordBits_toInt _).symm⟩) (coordFits_pair_toInt _ _)
  · exact decodeRequest_of_encode (encode_flush_eq_iff.2
      ⟨extractLsb'_eq_of_and_eq h rfl, extractLsb'_eq_of_and_eq h rfl⟩) rfl
  · refine decodeRequest_eq_illegal fun i hi he => ?_
    obtain ⟨inv, contrast, rfl⟩ | ⟨x, y, on, rfl⟩ | rfl | ⟨x, y, rfl⟩ | rfl := Machine.Instr.request_cases hi
    · exact h1 (and_mask_of_request (Laws.RowMatch.init inv contrast) he)
    · exact h2 (and_mask_of_request (Laws.RowMatch.setPixel x y on) he)
    · exact h3 (and_mask_of_request Laws.RowMatch.clear he)
    · exact h4 (and_mask_of_request (Laws.RowMatch.readPixel x y) he)
    · exact h5 (and_mask_of_request Laws.RowMatch.flush he)

/-- Settles O4, by the 256 bytes in each of the two modes. -/
theorem commandsDecodeByMatchMaskAndMode : Obligations.CommandsDecodeByMatchMaskAndMode := by
  unfold Obligations.CommandsDecodeByMatchMaskAndMode
  intro h
  cases h
  · decide
  · decide

end Sys2Proof
end

section
/-! The words a host presents: an illegal one raises its fault (R90), and the host's lines assemble to the table
of R93. -/

namespace Sys2Proof.Machine

/-- Settles O11: the fields of each request's code exclude all that the premise lists, so the word is illegal and the
step raises it. -/
theorem anIllegalWordRaisesIllegalRequest : Obligations.AnIllegalWordRaisesIllegalRequest := by
  unfold Obligations.AnIllegalWordRaisesIllegalRequest
  intro s w rest hmark hbus hfault hreq hbad
  refine (step_request hmark hbus hfault hreq).2 (decodeRequest_eq_illegal fun i hi he => ?_)
  obtain ⟨inv, contrast, rfl⟩ | ⟨x, y, on, rfl⟩ | rfl | ⟨x, y, rfl⟩ | rfl := Instr.request_cases hi
  · obtain ⟨hop, hzero, -, hbit, -⟩ := encode_init_eq_iff.1 he
    simp [hop, hzero, hbit, -BitVec.getLsbD_eq_getElem] at hbad
  · obtain ⟨hop, hzero, -⟩ := encode_setPixel_eq_iff.1 he
    simp [hop, hzero] at hbad
  · obtain ⟨hop, hzero⟩ := encode_clear_eq_iff.1 he
    simp [hop, hzero] at hbad
  · obtain ⟨hop, hzero, -⟩ := encode_readPixel_eq_iff.1 he
    simp [hop, hzero] at hbad
  · obtain ⟨hop, hzero⟩ := encode_flush_eq_iff.1 he
    simp [hop, hzero] at hbad

/-! ## The host's lines -/

/-- Masking a coordinate to 12 bits is taking its field (R73, R93). -/
theorem ofInt_and_mask (c : Int) : BitVec.ofInt 32 c &&& 0xFFF#32 = (coordBits c).setWidth 32 := by
  apply BitVec.eq_of_toNat_eq
  have hmask : (0xFFF#32).toNat = 2 ^ 12 - 1 := rfl
  rw [BitVec.toNat_and, hmask, Nat.and_two_pow_sub_one_eq_mod, coordBits]
  simp
  omega

/-- The words of R93's table, with each coordinate's field. -/
theorem requestWord_init (inv : Bool) (contrast : BitVec 7) :
    requestWord (.init inv contrast) =
      0x10000000#32 ||| ((BitVec.ofBool inv).setWidth 32 <<< 8) ||| contrast.setWidth 32 := by
  have h : requestWord (.init inv contrast) = 0x10000000#32 ||| ((BitVec.ofBool inv).setWidth 32 <<< 8) |||
    ((0#1).setWidth 32 <<< 7) ||| contrast.setWidth 32 :=
    (BitVec.setWidth_eq _).symm.trans BitVec.setWidth_append_append_append_eq_shiftLeft_setWidth_or
  rw [h, show (0#1).setWidth 32 <<< 7 = 0#32 from rfl, BitVec.or_zero]

theorem requestWord_setPixel (x y : Int) (on : Bool) :
    requestWord (.setPixel x y on) = 0x20000000#32 ||| ((BitVec.ofBool on).setWidth 32 <<< 24) |||
      ((coordBits y).setWidth 32 <<< 12) ||| (coordBits x).setWidth 32 :=
  (BitVec.setWidth_eq _).symm.trans BitVec.setWidth_append_append_append_eq_shiftLeft_setWidth_or

theorem requestWord_readPixel (x y : Int) :
    requestWord (.readPixel x y) =
      0x40000000#32 ||| ((coordBits y).setWidth 32 <<< 12) ||| (coordBits x).setWidth 32 :=
  (BitVec.setWidth_eq _).symm.trans BitVec.setWidth_append_append_eq_shiftLeft_setWidth_or

theorem assemble_singleton {line : Asm} {i : Instr} (h : line.expand = [i]) : assemble [line] = [requestWord i] := by
  simp [assemble, h]

/-- Settles O6: each line is one request, whose fields side by side are the table's formula. -/
theorem requestSyntaxGivesTheTabledWord : Obligations.RequestSyntaxGivesTheTabledWord := by
  unfold Obligations.RequestSyntaxGivesTheTabledWord
  intro c inv on x y
  refine ⟨?_, ?_, rfl, ?_, rfl⟩
  · rw [assemble_singleton rfl, requestWord_init]
  · rw [assemble_singleton rfl, requestWord_setPixel, ofInt_and_mask, ofInt_and_mask]
  · rw [assemble_singleton rfl, requestWord_readPixel, ofInt_and_mask, ofInt_and_mask]

end Sys2Proof.Machine
end

section
/-! The block's bus events: what a request appends to the trace are events of the operations it asks for, and those
carry the block's own bytes alone (R81, R92, R103). -/

namespace Sys2Proof.Machine

/-! ## The events of a request -/

/-- `t`'s trace is `s`'s with events of the operations `ops` after it. -/
def AppendsEventsOf (ops : List BusOp) (s t : State) : Prop :=
  ∃ evs : List BusEvent, t.trace = s.trace ++ evs ∧ ∀ e ∈ evs, ∃ op ∈ ops, ∃ r, e = op.event r

theorem AppendsEventsOf.of_trace_eq {ops : List BusOp} {s t : State} (h : t.trace = s.trace) :
    AppendsEventsOf ops s t :=
  ⟨[], by rw [h, List.append_nil], by simp⟩

/-- A walk ends at some event, so it appends those of a prefix of its operations (R243). -/
theorem runOps_appendsEventsOf (ops : List BusOp) (s : State) : AppendsEventsOf ops s (runOps ops s).2 := by
  obtain ⟨-, ht⟩ | ⟨pre, op, post, rfl, -, ht⟩ := runOps_trace ops s
  · refine ⟨_, ht, fun e he => ?_⟩
    obtain ⟨op, hop, rfl⟩ := List.mem_map.1 he
    exact ⟨op, hop, .ok, rfl⟩
  · refine ⟨_, by rw [ht, List.append_assoc], fun e he => ?_⟩
    obtain he | he := List.mem_append.1 he
    · obtain ⟨op', hop, rfl⟩ := List.mem_map.1 he
      exact ⟨op', by simp [hop], .ok, rfl⟩
    · exact ⟨op, by simp, .err, by simpa using he⟩

/-- The bus operations a request asks for: INIT's seven, or the dirty region's for FLUSH (R124, R171). -/
def requestOps (s : State) : Instr → List BusOp
  | .init inv contrast => initOps inv contrast
  | .flush => if s.dEmpty then [] else flushOps s
  | _ => []

theorem requestEffect_appendsEventsOf {i : Instr} (hi : i.isRequest = true) (s : State) :
    AppendsEventsOf (requestOps s i) s (requestEffect i s) := by
  obtain ⟨inv, contrast, rfl⟩ | ⟨x, y, on, rfl⟩ | rfl | ⟨x, y, rfl⟩ | rfl := Instr.request_cases hi
  · have hw := runOps_appendsEventsOf (initOps inv contrast) { s with cfgInv := inv, cfgContrast := contrast }
    obtain ⟨t, -, rfl, ⟨-, he⟩ | ⟨-, he⟩⟩ := runInit_cases inv contrast s <;> rw [requestEffect, he] <;> exact hw
  · exact .of_trace_eq (by rw [requestEffect, runSetPixel_frame])
  · exact .of_trace_eq rfl
  · exact .of_trace_eq rfl
  · have hw := runOps_appendsEventsOf (flushOps s) s
    obtain ⟨-, he⟩ | ⟨hd, t, -, rfl, hend⟩ := runFlush_cases s
    · exact .of_trace_eq (by rw [requestEffect, he]; rfl)
    · have hops : requestOps s .flush = flushOps s := by simp [requestOps, hd]
      rw [hops]
      obtain ⟨-, he⟩ | ⟨-, he⟩ := hend <;> rw [requestEffect, he] <;> exact hw

/-- A request only appends to the trace. -/
theorem exec_appendsEventsOf {i : Instr} {s t : State} (hi : i.isRequest = true) (h : exec i s = .next t) :
    AppendsEventsOf (requestOps s i) s t := by
  obtain ⟨hc, -⟩ | ⟨-, -, ⟨reason, -, rfl⟩ | ⟨-, rfl⟩⟩ := exec_next h
  · rw [hi] at hc; cases hc
  · exact .of_trace_eq rfl
  · exact requestEffect_appendsEventsOf hi s

/-! ## The bytes of a request's operations -/

/-- The command bytes of R81: one of INIT's, or an in-range address pair. -/
def IsOwnCommand (bytes : List Byte) : Prop :=
  (∃ c : BitVec 7, bytes = [0x21#8] ∨ bytes = [0x14#8] ∨ bytes = [0x80#8 ||| c.setWidth 8] ∨ bytes = [0x20#8] ∨
    bytes = [0x0C#8] ∨ bytes = [0x0D#8]) ∨
  (∃ x y : Nat, x ≤ 83 ∧ y ≤ 5 ∧ bytes = [0x80#8 ||| BitVec.ofNat 8 x, 0x40#8 ||| BitVec.ofNat 8 y])

/-- An operation the block may ask for: own command bytes, or 1 to 84 data bytes (R103). -/
def BusOp.IsOwn : BusOp → Prop
  | .pin _ => True
  | .txn .command bytes => IsOwnCommand bytes
  | .txn .data bytes => 1 ≤ bytes.length ∧ bytes.length ≤ 84

theorem cmdDctl_cases (inv : Bool) : cmdDctl inv = 0x0C#8 ∨ cmdDctl inv = 0x0D#8 := by
  cases inv
  · exact .inl rfl
  · exact .inr rfl

theorem initOps_isOwn {inv : Bool} {contrast : BitVec 7} {op : BusOp} (h : op ∈ initOps inv contrast) : op.IsOwn := by
  simp only [initOps, List.mem_cons, List.not_mem_nil, or_false] at h
  obtain rfl | rfl | rfl | rfl | rfl | rfl | rfl := h
  · trivial
  · trivial
  · exact .inl ⟨0, .inl rfl⟩
  · exact .inl ⟨0, .inr (.inl rfl)⟩
  · exact .inl ⟨contrast, .inr (.inr (.inl rfl))⟩
  · exact .inl ⟨0, .inr (.inr (.inr (.inl rfl)))⟩
  · obtain h | h := cmdDctl_cases inv <;> rw [h]
    · exact .inl ⟨0, .inr (.inr (.inr (.inr (.inl rfl))))⟩
    · exact .inl ⟨0, .inr (.inr (.inr (.inr (.inr rfl))))⟩

/-- The dirty bounds lie in the framebuffer (R26, R27). -/
theorem flushOps_isOwn {s : State} (ho : DirtyOrdered s) (hd : s.dEmpty = false) {op : BusOp} (h : op ∈ flushOps s) :
    op.IsOwn := by
  obtain ⟨-, hcol⟩ := ho hd
  obtain ⟨b, -, hb, rfl | rfl⟩ := flushOps_mem h
  · exact .inr ⟨s.dCmin.val, b, by omega, by omega, rfl⟩
  · show 1 ≤ (bankBytes s b).length ∧ (bankBytes s b).length ≤ 84
    rw [bankBytes_length]
    omega

theorem requestOps_isOwn {i : Instr} {s : State} (ho : DirtyOrdered s) {op : BusOp} (h : op ∈ requestOps s i) :
    op.IsOwn := by
  cases i with
  | init inv contrast => exact initOps_isOwn h
  | flush =>
    cases hd : s.dEmpty with
    | true => simp [requestOps, hd] at h
    | false => exact flushOps_isOwn ho hd (by simpa [requestOps, hd] using h)
  | _ => simp [requestOps] at h

/-- Settles O26: the events a request appends are those of its operations, and each of these is the block's own. -/
theorem theBlockEmitsOnlyItsOwnCommandBytes : Obligations.TheBlockEmitsOnlyItsOwnCommandBytes := by
  unfold Obligations.TheBlockEmitsOnlyItsOwnCommandBytes
  intro i s t hi ho h
  obtain ⟨evs, ht, hevs⟩ := exec_appendsEventsOf hi h
  have htxn : ∀ dc bytes r, .txn dc bytes r ∈ evs → (BusOp.txn dc bytes).IsOwn := by
    intro dc bytes r he
    obtain ⟨op, hop, r', heq⟩ := hevs _ he
    cases op with
    | pin l => cases heq
    | txn => cases heq; exact requestOps_isOwn ho hop
  exact ⟨evs, ht, htxn .command, htxn .data⟩

end Sys2Proof.Machine
end

section
/-! The rectangles (R94): a list of SET_PIXELs writes its points and no other pixel. -/

namespace Sys2Proof.Machine

/-! ## One pixel -/

/-- A pixel is read from its own bit of its own byte (R51, R140). -/
theorem pixelValue_in {x y : Int} (h : inb x y) (m : Memory) :
    pixelValue m x y = (fbRead m (cellAddr (y.toNat / 8) x.toNat)).getLsbD (y.toNat % 8) := by
  rw [pixelValue, locate_in h]
  rfl

/-- Two in-bounds pixels share a byte and a bit just when they are the same pixel. -/
theorem pixel_place_inj {x y x' y' : Int} (h : inb x y) (h' : inb x' y') :
    (cellAddr (y'.toNat / 8) x'.toNat = cellAddr (y.toNat / 8) x.toNat ∧ y'.toNat % 8 = y.toNat % 8) ↔
      (x', y') = (x, y) := by
  rw [cellAddr_inj (by omega) (by omega), Prod.mk.injEq]
  omega

/-- SET_PIXEL sets its own pixel and leaves every other (R141, R143). -/
theorem pixelValue_runSetPixel (s : State) (x y : Int) (on : Bool) {x' y' : Int} (h' : inb x' y') :
    pixelValue (runSetPixel x y on s).fb x' y' = if (x', y') = (x, y) then on else pixelValue s.fb x' y' := by
  by_cases h : inb x y
  · have hfb : (runSetPixel x y on s).fb = fbWrite s.fb (cellAddr (y.toNat / 8) x.toNat)
        (putBit (fbRead s.fb (cellAddr (y.toNat / 8) x.toNat)) ⟨y.toNat % 8, by omega⟩ on) := by
      rw [runSetPixel, locate_in h]; simp [Pixel.addr]
    rw [pixelValue_in h', pixelValue_in h', hfb, fbRead_fbWrite]
    simp only [← pixel_place_inj h h']
    by_cases ha : cellAddr (y'.toNat / 8) x'.toNat = cellAddr (y.toNat / 8) x.toNat
    · rw [if_pos ha, getLsbD_putBit _ _ _ _ (by omega), ha]
      simp
    · simp [ha]
  · have hfb : (runSetPixel x y on s).fb = s.fb := by rw [runSetPixel, locate_out h]; rfl
    have hne : (x', y') ≠ (x, y) := by
      rintro heq
      cases heq
      exact h h'
    rw [hfb, if_neg hne]

theorem runSetPixel_ready {s : State} (h : Ready s) (x y : Int) (on : Bool) : Ready (runSetPixel x y on s) := by
  rw [runSetPixel_frame]
  exact h

/-! ## A list of pixels -/

/-- SET_PIXELs of one value, in a ready block, set the pixels they name and leave every other. -/
theorem execAll_setPixels (on : Bool) (ps : List (Int × Int)) {s : State} (h : Ready s) :
    ∃ t, execAll (ps.map fun p => .setPixel p.1 p.2 on) s = .next t ∧
      ∀ x y, inb x y → pixelValue t.fb x y = if (x, y) ∈ ps then on else pixelValue s.fb x y := by
  induction ps generalizing s with
  | nil => exact ⟨s, rfl, fun x y _ => by simp⟩
  | cons p rest ih =>
    obtain ⟨px, py⟩ := p
    obtain ⟨t, ht, hpix⟩ := ih (runSetPixel_ready h px py on)
    refine ⟨t, ?_, fun x y hxy => ?_⟩
    · rw [List.map_cons, execAll, exec_ready h rfl rfl]
      exact ht
    · rw [hpix x y hxy, pixelValue_runSetPixel s px py on hxy]
      by_cases hr : (x, y) ∈ rest <;> simp [hr]

/-- Settles O37: both expansions are SET_PIXELs of one value at the points of R94's sets. -/
theorem rectanglesWriteExactlyTheirPixels : Obligations.RectanglesWriteExactlyTheirPixels := by
  unfold Obligations.RectanglesWriteExactlyTheirPixels
  intro s x0 y0 x1 y1 on hs
  constructor
  · intro _ _
    obtain ⟨t, ht, hpix⟩ := execAll_setPixels on (rectPoints x0 y0 x1 y1) hs
    refine ⟨t, ht, fun x y hxy => ?_⟩
    simpa only [mem_rectPoints] using hpix x y hxy
  · obtain ⟨t, ht, hpix⟩ := execAll_setPixels on (edgePoints x0 y0 x1 y1) hs
    refine ⟨t, ht, fun x y hxy => ?_⟩
    simpa only [mem_edgePoints] using hpix x y hxy

end Sys2Proof.Machine
end

section
/-! The bus primitives with the answer that comes next: what a transaction delivers (R101) and what a pin operation does
to the reset line (R104). -/

namespace Sys2Proof.Machine

/-! ## The answer that comes next -/

/-- A supplied answer is used up, and no free one is drawn. -/
theorem State.takeAnswer_cons {s : State} {a : Answer} {rest : List Answer} (h : s.answers = a :: rest) :
    s.takeAnswer = { s with answers := rest } := by
  unfold State.takeAnswer; rw [h]

theorem verdict_eq_ok_iff {a : Answer} : verdict a = .ok ↔ a = .ok := by
  cases a with
  | ok => simp [verdict]
  | err k => simp [verdict]

theorem BusMode.level_eq_ite (dc : BusMode) : BusMode.level dc = if dc = .data then Level.high else Level.low := by
  cases dc <;> rfl

/-- An error's `k` bytes are the transaction's first `k`, or all of them where it has fewer (R101). -/
theorem take_delivered_err (bytes : List Byte) (k : Nat) :
    bytes.take (delivered bytes.length (.err k)) = bytes.take k :=
  List.take_eq_take_min.symm

/-! ## The statements -/

/-- Settles O24: the transaction's state is `txn_state`'s, read at the answer that comes next. -/
theorem aTransactionDeliversWhatItsAnswerSays : Obligations.ATransactionDeliversWhatItsAnswerSays := by
  unfold Obligations.ATransactionDeliversWhatItsAnswerSays
  intro dc bytes s a rest h
  rw [txn_state, txn_result, nextAnswer_cons h, State.takeAnswer_cons h, BusMode.level_eq_ite]
  refine ⟨verdict_eq_ok_iff, ?_⟩
  cases a with
  | ok => rw [delivered, List.take_length]
  | err k => rw [take_delivered_err]

/-- Settles O25: an accepted operation acts on the controller at the release of the line alone, and a failed one draws
the line's level and the controller. -/
theorem aPinOperationMovesTheResetLine : Obligations.APinOperationMovesTheResetLine := by
  unfold Obligations.APinOperationMovesTheResetLine
  intro l s rest
  constructor
  · intro h
    have ha := nextAnswer_cons h
    refine ⟨if s.rst = .low ∧ l = .high then s.ctl.unspecified else s.ctl, Prod.ext ?_ ?_,
      fun hp => if_neg hp, fun hp => if_pos hp⟩
    · rw [pinSet_result, ha, verdict]
    · rw [pinSet_ok ha, State.takeAnswer_cons h]
  · intro k h
    have ha := nextAnswer_cons h
    refine ⟨(pinSet l s).2, Prod.ext ?_ rfl, ?_⟩
    · rw [pinSet_result, ha, verdict]
    · rw [pinSet_err ha, State.takeAnswer_cons h]
      exact ⟨rfl, rfl, rfl, rfl⟩

end Sys2Proof.Machine
end

section
/-! INIT: what its seven bus events leave, accepted or refused, and how it ends (41_controller_init.md). -/

namespace Sys2Proof.Machine

/-! ## The walk of an INIT -/

/-- The bus events of an INIT, run from the state whose latches are written (R121). -/
def initWalk (inv : Bool) (contrast : BitVec 7) (s : State) : TransportResult × State :=
  runOps (initOps inv contrast) { s with cfgInv := inv, cfgContrast := contrast }

theorem runInit_of_accepted {inv : Bool} {contrast : BitVec 7} {s : State} (h : (initWalk inv contrast s).1 = .ok) :
    runInit inv contrast s = { (initWalk inv contrast s).2 with phase := .ready }.respond .ok false := by
  obtain ⟨t, -, rfl, ⟨-, he⟩ | ⟨hr, -⟩⟩ := runInit_cases inv contrast s
  · exact he
  · rw [initWalk, hr] at h; cases h

theorem runInit_of_refused {inv : Bool} {contrast : BitVec 7} {s : State} (h : (initWalk inv contrast s).1 = .err) :
    runInit inv contrast s = { (initWalk inv contrast s).2 with phase := .failed }.respond .transportError false := by
  obtain ⟨t, -, rfl, ⟨hr, -⟩ | ⟨-, he⟩⟩ := runInit_cases inv contrast s
  · rw [initWalk, hr] at h; cases h
  · exact he

theorem runInit_cfgInv (inv : Bool) (contrast : BitVec 7) (s : State) : (runInit inv contrast s).cfgInv = inv := by
  rw [runInit_frame]

theorem runInit_cfgContrast (inv : Bool) (contrast : BitVec 7) (s : State) :
    (runInit inv contrast s).cfgContrast = contrast := by
  rw [runInit_frame]

/-- The events of INIT write no response; its end does (R121). -/
theorem initWalk_responses (inv : Bool) (contrast : BitVec 7) (s : State) :
    (initWalk inv contrast s).2.responses = s.responses :=
  (runOps_busOnly (initOps inv contrast) _).responses

/-- The model's operations of INIT leave the seven events R124 lists. -/
theorem initOps_events (inv : Bool) (contrast : BitVec 7) (r : TransportResult) :
    (initOps inv contrast).map (BusOp.event r) = initEvents inv contrast r := by
  cases inv <;> rfl

/-- The event of INIT's operation number `k`, cut out of the list of all seven. -/
theorem initOps_event_at (inv : Bool) (contrast : BitVec 7) (r : TransportResult) {k : Nat}
    (hk : k < (initOps inv contrast).length) :
    [(initOps inv contrast)[k].event r] = ((initEvents inv contrast r).drop k).take 1 := by
  rw [← initOps_events, List.drop_eq_getElem_cons (by simpa using hk)]
  simp

/-- An accepted walk leaves all seven events in the trace (R124). -/
theorem initWalk_trace_of_accepted {inv : Bool} {contrast : BitVec 7} {s : State}
    (h : (initWalk inv contrast s).1 = .ok) :
    (initWalk inv contrast s).2.trace = s.trace ++ initEvents inv contrast .ok := by
  obtain ⟨-, ht⟩ | ⟨-, -, -, -, hr, -⟩ := runOps_trace (initOps inv contrast)
    { s with cfgInv := inv, cfgContrast := contrast }
  · rw [initWalk, ht, initOps_events]
  · rw [initWalk, hr] at h; cases h

/-- An accepted walk leaves the controller known and the line released, and the pins as its last command left them
(R30, R126). -/
theorem initWalk_leaves_of_accepted {inv : Bool} {contrast : BitVec 7} {s : State}
    (h : (initWalk inv contrast s).1 = .ok) :
    Known (initWalk inv contrast s).2.ctl inv contrast ∧ (initWalk inv contrast s).2.rst = .high ∧
      (initWalk inv contrast s).2.cs = .high ∧ (initWalk inv contrast s).2.dc = .low := by
  obtain ⟨-, hend⟩ := initOps_walk inv contrast s.ctl.refusal False
    { s with cfgInv := inv, cfgContrast := contrast } ⟨rfl, False.elim⟩
  obtain ⟨hknown, hrst, hdc⟩ := hend h
  exact ⟨hknown, hrst, (runOps_last_txn (ops := (initOps inv contrast).dropLast) h).1, hdc⟩

/-- INIT sends no byte the controller refuses, however its events are answered (R231). -/
theorem runInit_refusal (inv : Bool) (contrast : BitVec 7) (s : State) :
    (runInit inv contrast s).ctl.refusal = s.ctl.refusal := by
  obtain ⟨⟨hmark, -⟩, -⟩ := initOps_walk inv contrast s.ctl.refusal False
    { s with cfgInv := inv, cfgContrast := contrast } ⟨rfl, False.elim⟩
  obtain ⟨t, -, rfl, ⟨-, he⟩ | ⟨-, he⟩⟩ := runInit_cases inv contrast s <;> rw [he] <;> exact hmark

/-- The OK response of INIT tells that every event was accepted (R121). -/
theorem initWalk_accepted_of_respond_ok {inv : Bool} {contrast : BitVec 7} {s : State}
    (h : (runInit inv contrast s).responses = s.responses ++ [⟨.ok, false⟩]) : (initWalk inv contrast s).1 = .ok := by
  cases hr : (initWalk inv contrast s).1 with
  | ok => rfl
  | err =>
    rw [runInit_of_refused hr, State.respond_responses, initWalk_responses] at h
    simp at h

/-- A request that raises a fault responds nothing (R246). -/
theorem runInit_of_exec_responds {inv : Bool} {contrast : BitVec 7} {s t : State} {r : Response}
    (h : exec (.init inv contrast) s = .next t) (hr : t.responses = s.responses ++ [r]) : t = runInit inv contrast s := by
  obtain ⟨hc, -⟩ | ⟨-, -, ⟨reason, -, rfl⟩ | ⟨-, rfl⟩⟩ := exec_next h
  · cases hc
  · rw [State.raise_responses] at hr
    simp at hr
  · rfl

/-! ## The statements -/

/-- Settles O27: seven Oks accept the whole walk, and the end of INIT adds the phase and the response. -/
theorem anAcceptedInitBringsTheControllerUp : Obligations.AnAcceptedInitBringsTheControllerUp := by
  unfold Obligations.AnAcceptedInitBringsTheControllerUp
  intro s inv contrast rest hf hp ha
  have hans : ({ s with cfgInv := inv, cfgContrast := contrast } : State).answers =
      List.replicate (initOps inv contrast).length .ok ++ rest := ha
  obtain ⟨hok, hrest⟩ := runOps_all_ok hans
  have hdraws := runOps_all_ok_draws hans
  obtain ⟨hknown, hrst, hcs, hdc⟩ := initWalk_leaves_of_accepted hok
  have he := runInit_of_accepted hok
  have hdraws' : (runInit inv contrast s).transportDraws = s.transportDraws := by rw [he]; exact hdraws
  have hframe := runInit_frame inv contrast s
  rw [hdraws'] at hframe
  refine ⟨runInit inv contrast s, exec_first_init hf hp inv contrast, ?_, runInit_cfgInv inv contrast s,
    runInit_cfgContrast inv contrast s, ?_, ?_, ?_, ?_, ?_, ?_, ?_, by rwa [runInit_cfgInv, runInit_cfgContrast]⟩
  all_goals rw [he]
  · rfl
  · exact initWalk_trace_of_accepted hok
  · rw [State.respond_responses, initWalk_responses]
  · exact hrst
  · exact hcs
  · exact hdc
  · exact hrest
  · exact hknown

/-- Settles O28: the walk ends at the Err, and the end of INIT adds the phase and the response. -/
theorem initStopsAtTheFirstRefusedEvent : Obligations.InitStopsAtTheFirstRefusedEvent := by
  unfold Obligations.InitStopsAtTheFirstRefusedEvent
  intro s inv contrast k j rest hf hp hk ha
  have hlen : k < (initOps inv contrast).length := hk
  obtain ⟨herr, hrest, htrace⟩ := runOps_err_at (s := { s with cfgInv := inv, cfgContrast := contrast }) hlen ha
  rw [List.map_take, initOps_events, initOps_event_at] at htrace
  have he := runInit_of_refused herr
  refine ⟨runInit inv contrast s, exec_first_init hf hp inv contrast, ?_, runInit_cfgInv inv contrast s,
    runInit_cfgContrast inv contrast s, ?_, ?_, by rw [runInit_frame], by rw [runInit_frame], ?_⟩
  all_goals rw [he]
  · rfl
  · exact htrace
  · rw [State.respond_responses, initWalk_responses]
  · exact hrest

/-- Settles O29: an INIT that responds OK ran and was accepted whole, and its events are R124's. -/
theorem everyCompletedInitEmitsOnePulseAndFiveCommands : Obligations.EveryCompletedInitEmitsOnePulseAndFiveCommands := by
  unfold Obligations.EveryCompletedInitEmitsOnePulseAndFiveCommands
  intro s t inv contrast h hr
  obtain rfl := runInit_of_exec_responds h hr
  have hok := initWalk_accepted_of_respond_ok hr
  refine ⟨_, _, rfl, rfl, ?_⟩
  rw [runInit_of_accepted hok]
  exact initWalk_trace_of_accepted hok

/-- Settles O30: the walk is accepted or refused, and the frame is INIT's. -/
theorem initEndsReadyOrFailed : Obligations.InitEndsReadyOrFailed := by
  unfold Obligations.InitEndsReadyOrFailed
  intro s inv contrast hf hp
  refine ⟨runInit inv contrast s, exec_first_init hf hp inv contrast, ?_, runInit_refusal inv contrast s,
    runInit_frame inv contrast s⟩
  cases hr : (initWalk inv contrast s).1 with
  | ok =>
    obtain ⟨hknown, hrst, -, -⟩ := initWalk_leaves_of_accepted hr
    rw [runInit_of_accepted hr, State.respond_responses, initWalk_responses]
    exact .inl ⟨rfl, rfl, hknown, hrst⟩
  | err =>
    rw [runInit_of_refused hr, State.respond_responses, initWalk_responses]
    exact .inr ⟨rfl, rfl⟩

end Sys2Proof.Machine
end

section
/-! The framebuffer requests (42_framebuffer.md): what SET_PIXEL, CLEAR and READ_PIXEL write and respond, and the dirty
region that a list of SET_PIXELs leaves. -/

namespace Sys2Proof.Machine

/-! ## One pixel, in bounds and out -/

/-- In bounds, SET_PIXEL writes the pixel at bank y / 8, column x, bit y mod 8, and extends the region to it (R141). -/
theorem runSetPixel_in {x y : Int} (h : inb x y) (on : Bool) (s : State) :
    ∃ p : Pixel, p.bank.val = y.toNat / 8 ∧ p.col.val = x.toNat ∧ p.bit.val = y.toNat % 8 ∧
      runSetPixel x y on s = ((s.putPixel p on).extendDirty p).respond .ok false :=
  ⟨_, rfl, rfl, rfl, by rw [runSetPixel, locate_in h]⟩

/-- Out of bounds, SET_PIXEL is clipped (R143). -/
theorem runSetPixel_out {x y : Int} (h : ¬ inb x y) (on : Bool) (s : State) :
    runSetPixel x y on s = s.respond .ok false := by
  rw [runSetPixel, locate_out h]

/-- Out of bounds, READ_PIXEL's value is 0 (R143). -/
theorem pixelValue_out {x y : Int} (h : ¬ inb x y) (m : Memory) : pixelValue m x y = false := by
  rw [pixelValue, locate_out h]

/-- Settles O32: neither request finds a pixel, so each is its response alone. -/
theorem outOfBoundsIsClipped : Obligations.OutOfBoundsIsClipped := by
  unfold Obligations.OutOfBoundsIsClipped
  intro s x y on hs hout
  have hnot : ¬ inb x y := by omega
  rw [exec_ready hs rfl rfl, exec_ready hs rfl rfl, requestEffect, requestEffect, runSetPixel_out hnot, runReadPixel,
    pixelValue_out hnot]
  exact ⟨rfl, rfl⟩

/-- Settles O34: the value READ_PIXEL responds is the pixel's bit. -/
theorem readPixelRespondsTheBitAndChangesNothing : Obligations.ReadPixelRespondsTheBitAndChangesNothing := by
  unfold Obligations.ReadPixelRespondsTheBitAndChangesNothing
  intro s x y hs hxy
  rw [exec_ready hs rfl rfl, requestEffect, runReadPixel, pixelValue_in hxy]
  rfl

/-- Settles O33: after SET_PIXEL the value of its own pixel is the one it wrote. -/
theorem readPixelRespondsWhatSetPixelWrote : Obligations.ReadPixelRespondsWhatSetPixelWrote := by
  unfold Obligations.ReadPixelRespondsWhatSetPixelWrote
  intro s x y on hs hxy
  have hvalue : pixelValue (runSetPixel x y on s).fb x y = on := by
    rw [pixelValue_runSetPixel s x y on hxy, if_pos rfl]
  refine ⟨runSetPixel x y on s, runReadPixel x y (runSetPixel x y on s), exec_ready hs rfl rfl,
    exec_ready (runSetPixel_ready hs x y on) rfl rfl, ?_⟩
  rw [runReadPixel, hvalue, State.respond_responses]

/-- Settles O35: every byte CLEAR leaves reads 0, and so does every pixel's bit of it. -/
theorem clearZeroesAndMarksEverythingDirty : Obligations.ClearZeroesAndMarksEverythingDirty := by
  unfold Obligations.ClearZeroesAndMarksEverythingDirty
  intro s hs
  have hready : Ready (runClear s) := hs
  refine ⟨runClear s, exec_ready hs rfl rfl, fbRead_runClear s, rfl, rfl, rfl, rfl, rfl, rfl, fun x y hxy => ?_, rfl⟩
  refine ⟨runReadPixel x y (runClear s), exec_ready hready rfl rfl, ?_⟩
  rw [runReadPixel, pixelValue_in hxy, fbRead_runClear, BitVec.getLsbD_zero, State.respond_responses]

/-! ## The region one pixel leaves -/

/-- An in-bounds SET_PIXEL leaves a region that is not empty (R141). -/
theorem runSetPixel_dEmpty_in {x y : Int} (h : inb x y) (on : Bool) (s : State) :
    (runSetPixel x y on s).dEmpty = false := by
  obtain ⟨p, -, -, -, hrun⟩ := runSetPixel_in h on s
  simp [hrun]

/-- On an empty region an in-bounds SET_PIXEL leaves its own bank and column as the bounds (R141). -/
theorem runSetPixel_bounds_of_empty {x y : Int} (h : inb x y) (on : Bool) {s : State} (he : s.dEmpty = true) :
    (runSetPixel x y on s).dBmin.val = y.toNat / 8 ∧ (runSetPixel x y on s).dBmax.val = y.toNat / 8 ∧
      (runSetPixel x y on s).dCmin.val = x.toNat ∧ (runSetPixel x y on s).dCmax.val = x.toNat := by
  obtain ⟨p, hbank, hcol, -, hrun⟩ := runSetPixel_in h on s
  simp [hrun, he, hbank, hcol, State.extendDirty_dBmin, State.extendDirty_dBmax, State.extendDirty_dCmin,
    State.extendDirty_dCmax]

/-- On a region that is not empty an in-bounds SET_PIXEL extends the bounds to its bank and column (R141). -/
theorem runSetPixel_bounds_of_dirty {x y : Int} (h : inb x y) (on : Bool) {s : State} (hd : s.dEmpty = false) :
    (runSetPixel x y on s).dBmin.val = min s.dBmin.val (y.toNat / 8) ∧
      (runSetPixel x y on s).dBmax.val = max s.dBmax.val (y.toNat / 8) ∧
      (runSetPixel x y on s).dCmin.val = min s.dCmin.val x.toNat ∧
      (runSetPixel x y on s).dCmax.val = max s.dCmax.val x.toNat := by
  obtain ⟨p, hbank, hcol, -, hrun⟩ := runSetPixel_in h on s
  simp [hrun, hd, hbank, hcol, State.extendDirty_dBmin, State.extendDirty_dBmax, State.extendDirty_dCmin,
    State.extendDirty_dCmax]

/-- Settles O31: the byte of the pixel is `putBit` of the old one, the region is the pixel's extension of the old one, and
the rest is SET_PIXEL's frame. -/
theorem setPixelWritesOneBitAndExtendsTheRegion : Obligations.SetPixelWritesOneBitAndExtendsTheRegion := by
  unfold Obligations.SetPixelWritesOneBitAndExtendsTheRegion
  intro s x y on hs hxy
  obtain ⟨p, hbank, hcol, hbit, hrun⟩ := runSetPixel_in hxy on s
  have haddr : p.addr = cellAddr (y.toNat / 8) x.toNat := by rw [Pixel.addr, hbank, hcol]
  have hfb : (runSetPixel x y on s).fb = fbWrite s.fb p.addr (putBit (fbRead s.fb p.addr) p.bit on) := by simp [hrun]
  refine ⟨runSetPixel x y on s, exec_ready hs rfl rfl, fun j hj => ?_, fun a ha => ?_, runSetPixel_dEmpty_in hxy on s,
    runSetPixel_bounds_of_empty hxy on, runSetPixel_bounds_of_dirty hxy on, by simp [hrun], runSetPixel_frame x y on s⟩
  · rw [hfb, ← haddr, fbRead_fbWrite, if_pos rfl, getLsbD_putBit _ _ _ _ hj, hbit]
  · rw [hfb, fbRead_fbWrite, haddr, if_neg ha]

/-! ## The region a list of pixels leaves -/

/-- One SET_PIXEL: its coordinates and its value. -/
abbrev Draw := Int × Int × Bool

/-- The draw is in bounds (R140). -/
abbrev Draw.Visible (p : Draw) : Prop := inb p.1 p.2.1

/-- The bank of a draw in bounds (R140). -/
abbrev Draw.bank (p : Draw) : Nat := p.2.1.toNat / 8

/-- The column of a draw in bounds (R140). -/
abbrev Draw.col (p : Draw) : Nat := p.1.toNat

/-- One draw once admitted. -/
def Draw.run (s : State) (p : Draw) : State := runSetPixel p.1 p.2.1 p.2.2 s

/-- In a ready block a list of SET_PIXELs runs them all, in order. -/
theorem execAll_draws (ps : List Draw) {s : State} (h : Ready s) :
    execAll (ps.map fun p => .setPixel p.1 p.2.1 p.2.2) s = .next (ps.foldl Draw.run s) := by
  induction ps generalizing s with
  | nil => rfl
  | cons p rest ih =>
    rw [List.map_cons, execAll, exec_ready h rfl rfl]
    exact ih (runSetPixel_ready h _ _ _)

/-- `n` is the coordinate `f` of some draw in bounds. -/
def Attained (ps : List Draw) (f : Draw → Nat) (n : Nat) : Prop := ∃ p ∈ ps, p.Visible ∧ f p = n

theorem Attained.last {p : Draw} (hp : p.Visible) (ps : List Draw) (f : Draw → Nat) : Attained (ps ++ [p]) f (f p) :=
  ⟨p, by simp, hp, rfl⟩

theorem Attained.concat {ps : List Draw} {f : Draw → Nat} {n : Nat} (h : Attained ps f n) (p : Draw) :
    Attained (ps ++ [p]) f n := by
  obtain ⟨q, hq, hv, hf⟩ := h
  exact ⟨q, List.mem_append_left _ hq, hv, hf⟩

theorem Attained.min {ps : List Draw} {f : Draw → Nat} {n : Nat} (h : Attained ps f n) {p : Draw} (hp : p.Visible) :
    Attained (ps ++ [p]) f (min n (f p)) := by
  rcases min_choice n (f p) with hm | hm <;> rw [hm]
  · exact h.concat p
  · exact .last hp ps f

theorem Attained.max {ps : List Draw} {f : Draw → Nat} {n : Nat} (h : Attained ps f n) {p : Draw} (hp : p.Visible) :
    Attained (ps ++ [p]) f (max n (f p)) := by
  rcases max_choice n (f p) with hm | hm <;> rw [hm]
  · exact h.concat p
  · exact .last hp ps f

/-- The region of `t` is the smallest box of the draws in bounds, and empty before the first of them (R144). -/
structure SmallestBox (ps : List Draw) (t : State) : Prop where
  dirty : ∀ p ∈ ps, p.Visible → t.dEmpty = false
  contains : ∀ p ∈ ps, p.Visible → InRegion t p.bank p.col
  tight : t.dEmpty = false → Attained ps Draw.bank t.dBmin.val ∧ Attained ps Draw.bank t.dBmax.val ∧
    Attained ps Draw.col t.dCmin.val ∧ Attained ps Draw.col t.dCmax.val

theorem SmallestBox.nil {s : State} (he : s.dEmpty = true) : SmallestBox [] s where
  dirty := by simp
  contains := by simp
  tight hd := by rw [he] at hd; cases hd

/-- A clipped draw leaves the box as it is (R143). -/
theorem SmallestBox.concat_out {ps : List Draw} {s : State} (h : SmallestBox ps s) {p : Draw} (hp : ¬ p.Visible) :
    SmallestBox (ps ++ [p]) (p.run s) := by
  have hrun : p.run s = s.respond .ok false := runSetPixel_out hp p.2.2 s
  have hmem : ∀ q ∈ ps ++ [p], q.Visible → q ∈ ps := by
    intro q hq hv
    rcases List.mem_append.1 hq with hq | hq
    · exact hq
    · rw [List.mem_singleton.1 hq] at hv; exact absurd hv hp
  rw [hrun]
  refine ⟨fun q hq hv => h.dirty q (hmem q hq hv) hv, fun q hq hv => h.contains q (hmem q hq hv) hv, fun hd => ?_⟩
  obtain ⟨hbmin, hbmax, hcmin, hcmax⟩ := h.tight hd
  exact ⟨hbmin.concat p, hbmax.concat p, hcmin.concat p, hcmax.concat p⟩

/-- The first draw in bounds is the box (R141). -/
theorem SmallestBox.concat_of_empty {ps : List Draw} {s : State} (h : SmallestBox ps s) (he : s.dEmpty = true)
    {p : Draw} (hp : p.Visible) : SmallestBox (ps ++ [p]) (p.run s) := by
  obtain ⟨hbmin, hbmax, hcmin, hcmax⟩ := runSetPixel_bounds_of_empty hp p.2.2 he
  have hlast := Attained.last hp ps
  refine ⟨fun _ _ _ => runSetPixel_dEmpty_in hp p.2.2 s, fun q hq hv => ?_, fun _ => ?_⟩
  · rcases List.mem_append.1 hq with hq | hq
    · have hd := h.dirty q hq hv
      rw [he] at hd; cases hd
    · rw [List.mem_singleton.1 hq]
      exact ⟨⟨hbmin.le, hbmax.ge⟩, ⟨hcmin.le, hcmax.ge⟩⟩
  · rw [Draw.run, hbmin, hbmax, hcmin, hcmax]
    exact ⟨hlast _, hlast _, hlast _, hlast _⟩

/-- A further draw in bounds extends each bound just as far as its own bank and column (R141). -/
theorem SmallestBox.concat_of_dirty {ps : List Draw} {s : State} (h : SmallestBox ps s) (hd : s.dEmpty = false)
    {p : Draw} (hp : p.Visible) : SmallestBox (ps ++ [p]) (p.run s) := by
  obtain ⟨hbmin, hbmax, hcmin, hcmax⟩ := runSetPixel_bounds_of_dirty hp p.2.2 hd
  refine ⟨fun _ _ _ => runSetPixel_dEmpty_in hp p.2.2 s, fun q hq hv => ?_, fun _ => ?_⟩
  · rw [InRegion, Draw.run, hbmin, hbmax, hcmin, hcmax]
    rcases List.mem_append.1 hq with hq | hq
    · have hin := h.contains q hq hv
      omega
    · rw [List.mem_singleton.1 hq]
      exact ⟨⟨min_le_right _ _, le_max_right _ _⟩, ⟨min_le_right _ _, le_max_right _ _⟩⟩
  · obtain ⟨tbmin, tbmax, tcmin, tcmax⟩ := h.tight hd
    rw [Draw.run, hbmin, hbmax, hcmin, hcmax]
    exact ⟨tbmin.min hp, tbmax.max hp, tcmin.min hp, tcmax.max hp⟩

/-- From an empty region, any list of draws leaves the smallest box of those in bounds (R144). -/
theorem smallestBox_draws {s : State} (he : s.dEmpty = true) (ps : List Draw) : SmallestBox ps (ps.foldl Draw.run s) := by
  induction ps using List.reverseRecOn with
  | nil => exact .nil he
  | append_singleton ps p ih =>
    rw [List.foldl_concat]
    by_cases hp : p.Visible
    · cases hd : (ps.foldl Draw.run s).dEmpty with
      | true => exact ih.concat_of_empty hd hp
      | false => exact ih.concat_of_dirty hd hp
    · exact ih.concat_out hp

/-- Settles O36: the list runs, and the region it leaves is the smallest box, by induction on the list from its end. -/
theorem theDirtyRegionIsTheSmallestBox : Obligations.TheDirtyRegionIsTheSmallestBox := by
  unfold Obligations.TheDirtyRegionIsTheSmallestBox
  intro s ps hs he hvisible
  obtain ⟨p, hp, hv⟩ := hvisible
  have hbox := smallestBox_draws he ps
  have hdirty := hbox.dirty p hp hv
  exact ⟨ps.foldl Draw.run s, execAll_draws ps hs, hdirty, hbox.contains, hbox.tight hdirty⟩

end Sys2Proof.Machine
end

section
/-! FLUSH: what its walk appends to the trace, how it ends, what it leaves in the display RAM, and that a second one is
silent (43_flush.md). -/

namespace Sys2Proof.Machine

/-! ## How a FLUSH ends -/

/-- FLUSH answers OK with the region emptied, or TRANSPORT_ERROR with the region kept (R171, R176). -/
theorem runFlush_responds (s : State) :
    ((runFlush s).responses = s.responses ++ [⟨.ok, false⟩] ∧ (runFlush s).dEmpty = true) ∨
      ((runFlush s).responses = s.responses ++ [⟨.transportError, false⟩] ∧ (runFlush s).dEmpty = false) := by
  obtain ⟨he, hf⟩ | ⟨hd, t, hb, -, ⟨-, hf⟩ | ⟨-, hf⟩⟩ := runFlush_cases s <;> rw [hf]
  · exact .inl ⟨rfl, he⟩
  · exact .inl ⟨by simp [hb.responses], rfl⟩
  · exact .inr ⟨by simp [hb.responses], hb.dEmpty.trans hd⟩

/-- The status of a FLUSH tells whether the region is now empty. -/
theorem runFlush_dEmpty_iff {s : State} {status : Status}
    (h : (runFlush s).responses = s.responses ++ [⟨status, false⟩]) : (runFlush s).dEmpty = true ↔ status = .ok := by
  obtain ⟨hr, he⟩ | ⟨hr, he⟩ := runFlush_responds s
  · obtain rfl : Status.ok = status := by simpa [hr] using h
    simp [he]
  · obtain rfl : Status.transportError = status := by simpa [hr] using h
    simp [he]

/-- In a ready block a FLUSH runs (R242). -/
theorem eq_runFlush_of_exec {s t : State} (hs : Ready s) (h : exec .flush s = .next t) : t = runFlush s := by
  rw [exec_ready hs rfl rfl] at h
  exact (Host.Outcome.next.inj h).symm

theorem runFlush_ready {s : State} (hs : Ready s) : Ready (runFlush s) := by
  rw [runFlush_frame]
  exact hs

/-- FLUSH does not write the framebuffer (R171). -/
theorem runFlush_fb (s : State) : (runFlush s).fb = s.fb := by
  rw [runFlush_frame]

/-- FLUSH does not write the dirty bounds (R171). -/
theorem runFlush_inRegion_iff {s : State} {b c : Nat} : InRegion (runFlush s) b c ↔ InRegion s b c := by
  rw [runFlush_frame]

/-- The end of a FLUSH does not touch the controller: its walk alone does (R171). -/
theorem runFlush_ctl_of_dirty {s : State} (hd : s.dEmpty = false) :
    (runFlush s).ctl = (runOps (flushOps s) s).2.ctl := by
  obtain ⟨he, -⟩ | ⟨-, t, -, rfl, ⟨-, hf⟩ | ⟨-, hf⟩⟩ := runFlush_cases s
  · rw [hd] at he; cases he
  · rw [hf]; rfl
  · rw [hf]; rfl

/-- What an accepted walk leaves, with the region emptied and the OK response (R171). -/
theorem runFlush_of_accepted {s : State} (hd : s.dEmpty = false) (hr : (runOps (flushOps s) s).1 = .ok) :
    runFlush s = (runOps (flushOps s) s).2.clearDirty.respond .ok false := by
  obtain ⟨he, -⟩ | ⟨-, t, -, rfl, ⟨-, hf⟩ | ⟨hr', -⟩⟩ := runFlush_cases s
  · rw [hd] at he; cases he
  · exact hf
  · rw [hr] at hr'; cases hr'

/-- Settles O38: with nothing dirty FLUSH is its response alone. -/
theorem flushOfAnEmptyRegionIsSilent : Obligations.FlushOfAnEmptyRegionIsSilent := by
  unfold Obligations.FlushOfAnEmptyRegionIsSilent
  intro s hs he
  rw [exec_ready hs rfl rfl, requestEffect, runFlush_of_clean he]
  rfl

/-! ## The events of an accepted FLUSH -/

theorem ascending_eq_map_range {lo hi : Nat} (h : lo ≤ hi) :
    ascending lo hi = (List.range (hi - lo + 1)).map (lo + ·) := by
  rw [ascending, List.range'_eq_map_range, Nat.sub_add_comm h]

/-- The bytes a bank's data transaction carries are its dirty columns' (R171). -/
theorem bankBytes_eq_dirtyBytes {s : State} (h : s.dCmin.val ≤ s.dCmax.val) (b : Nat) :
    bankBytes s b = dirtyBytes s b := by
  rw [bankBytes, ascending_eq_map_range h, List.map_map]
  rfl

/-- The walk of a FLUSH, bank by bank from the first dirty one. -/
theorem flushOps_eq_flatMap_range {s : State} (h : s.dBmin.val ≤ s.dBmax.val) :
    flushOps s = (List.range (dirtyBanks s)).flatMap fun k => bankOps s (s.dBmin.val + k) := by
  rw [flushOps, ascending_eq_map_range h, List.flatMap_map]
  rfl

theorem flushOps_length {s : State} (h : s.dBmin.val ≤ s.dBmax.val) : (flushOps s).length = 2 * dirtyBanks s := by
  simp [flushOps_eq_flatMap_range h, bankOps, List.length_flatMap, Nat.mul_comm]

/-- The model's operations of a FLUSH leave the events R171 lists. -/
theorem flushOps_events {s : State} (hbank : s.dBmin.val ≤ s.dBmax.val) (hcol : s.dCmin.val ≤ s.dCmax.val) :
    (flushOps s).map (BusOp.event .ok) = flushEvents s := by
  rw [flushOps_eq_flatMap_range hbank, List.map_flatMap]
  simp only [bankOps, bankBytes_eq_dirtyBytes hcol]
  rfl

/-- The walk of a FLUSH ends with the last bank's data transaction (R171). -/
theorem flushOps_eq_concat {s : State} (h : s.dBmin.val ≤ s.dBmax.val) :
    ∃ ops, flushOps s = ops ++ [.txn .data (bankBytes s s.dBmax.val)] := by
  refine ⟨(List.range (s.dBmax.val - s.dBmin.val)).flatMap (fun k => bankOps s (s.dBmin.val + k)) ++
    [.txn .command [cmdSetX s.dCmin.val, cmdSetY s.dBmax.val]], ?_⟩
  rw [flushOps_eq_flatMap_range h, dirtyBanks, List.range_succ, List.flatMap_append, List.flatMap_singleton,
    Nat.add_sub_cancel' h, List.append_assoc]
  rfl

/-- An accepted walk leaves R171's events in the trace. -/
theorem flushOps_trace_of_accepted {s : State} (ho : DirtyOrdered s) (hd : s.dEmpty = false)
    (hr : (runOps (flushOps s) s).1 = .ok) : (runOps (flushOps s) s).2.trace = s.trace ++ flushEvents s := by
  obtain ⟨hbank, hcol⟩ := ho hd
  obtain ⟨-, ht⟩ | ⟨-, -, -, -, hr', -⟩ := runOps_trace (flushOps s) s
  · rw [ht, flushOps_events hbank hcol]
  · rw [hr] at hr'; cases hr'

/-- Settles O39: an Ok for each of the two events per bank accepts the whole walk, and the end of FLUSH empties the region
and responds. -/
theorem anAcceptedFlushStreamsTheRegionBankByBank : Obligations.AnAcceptedFlushStreamsTheRegionBankByBank := by
  unfold Obligations.AnAcceptedFlushStreamsTheRegionBankByBank
  intro s rest hs hd ho ha
  obtain ⟨hbank, -⟩ := ho hd
  rw [← flushOps_length hbank] at ha
  obtain ⟨hok, hrest⟩ := runOps_all_ok ha
  have hdraws := runOps_all_ok_draws ha
  have htrace := flushOps_trace_of_accepted ho hd hok
  have hresponses := (runOps_busOnly (flushOps s) s).responses
  obtain ⟨hcs, hdc⟩ : (runOps (flushOps s) s).2.cs = .high ∧ (runOps (flushOps s) s).2.dc = .high := by
    obtain ⟨ops, hops⟩ := flushOps_eq_concat hbank
    rw [hops] at hok ⊢
    exact runOps_last_txn hok
  have he := runFlush_of_accepted hd hok
  have hdraws' : (runFlush s).transportDraws = s.transportDraws := by rw [he]; exact hdraws
  have hframe := runFlush_frame s
  rw [hdraws'] at hframe
  refine ⟨runFlush s, exec_ready hs rfl rfl, ?_, ?_, ?_, ?_, ?_, ?_, hframe⟩ <;> rw [he]
  · exact htrace
  · rfl
  · rw [State.respond_responses]; exact congrArg (· ++ _) hresponses
  · exact hcs
  · exact hdc
  · exact hrest

/-! ## The traffic of a completed FLUSH -/

/-- In a list of pairs laid end to end, the even places hold the firsts and the odd places the seconds. -/
theorem getElem?_flatMap_pair {α β : Type} (f g : α → β) (l : List α) (k : Nat) :
    (l.flatMap fun a => [f a, g a])[k]? = l[k / 2]?.map (if k % 2 = 0 then f else g) := by
  induction l generalizing k with
  | nil => simp
  | cons a rest ih =>
    match k with
    | 0 => simp
    | 1 => simp
    | k + 2 => simp [ih]

theorem dirtyBytes_length (s : State) (b : Nat) : (dirtyBytes s b).length = dirtyCols s := by
  simp [dirtyBytes]

theorem flushEvents_length (s : State) : (flushEvents s).length = 2 * dirtyBanks s := by
  simp [flushEvents, List.length_flatMap, Nat.mul_comm]

/-- The even events of a FLUSH are the two-byte address pairs (R172). -/
theorem flushEvents_even {s : State} {k : Nat} {e : BusEvent} (h : (flushEvents s)[k]? = some e) (hk : k % 2 = 0) :
    e.isTxn .command = true ∧ e.byteCount = 2 := by
  rw [flushEvents, getElem?_flatMap_pair, if_pos hk, Option.map_eq_some_iff] at h
  obtain ⟨j, -, rfl⟩ := h
  exact ⟨rfl, rfl⟩

/-- The odd events of a FLUSH carry one byte per dirty column (R172). -/
theorem flushEvents_odd {s : State} {k : Nat} {e : BusEvent} (h : (flushEvents s)[k]? = some e) (hk : k % 2 = 1) :
    e.isTxn .data = true ∧ e.byteCount = dirtyCols s := by
  rw [flushEvents, getElem?_flatMap_pair, if_neg (by omega), Option.map_eq_some_iff] at h
  obtain ⟨j, -, rfl⟩ := h
  exact ⟨rfl, dirtyBytes_length s _⟩

/-- Two bytes and a byte per dirty column, for each dirty bank (R172). -/
theorem flushEvents_byteCount_sum (s : State) :
    ((flushEvents s).map BusEvent.byteCount).sum = dirtyBanks s * (2 + dirtyCols s) := by
  rw [flushEvents]
  induction dirtyBanks s with
  | zero => simp
  | succ n ih =>
    rw [List.range_succ, List.flatMap_append, List.map_append, List.sum_append, ih, Nat.succ_mul]
    simp [BusEvent.byteCount, dirtyBytes_length]

/-- The dirty columns are some of the 84 (R27). -/
theorem dirtyCols_le (s : State) : dirtyCols s ≤ 84 := by
  unfold dirtyCols
  omega

/-- Settles O40: a FLUSH that responds OK had its whole walk accepted, and its events are R171's, counted. -/
theorem flushTrafficCounts : Obligations.FlushTrafficCounts := by
  unfold Obligations.FlushTrafficCounts
  intro s t hs hd ho h hok
  obtain rfl := eq_runFlush_of_exec hs h
  obtain ⟨hr, -⟩ := runOps_flushOps_of_respond_ok hd hok
  have htrace : (runFlush s).trace = s.trace ++ flushEvents s := by
    rw [runFlush_of_accepted hd hr]
    exact flushOps_trace_of_accepted ho hd hr
  refine ⟨flushEvents s, htrace, flushEvents_length s, fun k e => flushEvents_even, fun k e he hk => ?_,
    flushEvents_byteCount_sum s⟩
  obtain ⟨htxn, hcount⟩ := flushEvents_odd he hk
  exact ⟨htxn, hcount, hcount ▸ Nat.le_add_left 1 _, hcount ▸ dirtyCols_le s⟩

/-! ## The display after a FLUSH -/

/-- However a FLUSH ends, each display RAM byte is as before, or is a byte of the region now equal to the framebuffer's
(R176). -/
theorem runFlush_dram {s : State} (hh : s.ctl.h = false) (hd : s.dEmpty = false) (b : Nat) {c : Nat} (hc : c < 84) :
    (runFlush s).ctl.dram b c = s.ctl.dram b c ∨
      (InRegion s b c ∧ (runFlush s).ctl.dram b c = fbRead s.fb (cellAddr b c)) := by
  rw [runFlush_ctl_of_dirty hd, ← exists_inBank_iff hc]
  exact (flushOps_walk s hh).some_written (cellAddr b c)

/-- However a FLUSH ends, it moves the controller's counters and display RAM alone (R177). -/
theorem runFlush_sameSettings {s : State} (hh : s.ctl.h = false) (hd : s.dEmpty = false) :
    s.ctl.SameSettings (runFlush s).ctl := by
  rw [runFlush_ctl_of_dirty hd]
  exact (flushOps_walk s hh).same

/-- Settles O41: the accepted walk wrote the region's bytes and no other. -/
theorem aCompletedFlushCopiesTheRegionToTheDisplay : Obligations.ACompletedFlushCopiesTheRegionToTheDisplay := by
  unfold Obligations.ACompletedFlushCopiesTheRegionToTheDisplay
  intro s t hs hh hd h hok b c _ hc
  obtain rfl := eq_runFlush_of_exec hs h
  exact runFlush_dram_of_respond_ok hh hd hok hc

/-- Settles O42: the walk keeps the settings and writes bytes of the region alone, and the end of FLUSH empties the region
with the OK response alone. -/
theorem flushKeepsTheRegionUnlessItCompletes : Obligations.FlushKeepsTheRegionUnlessItCompletes := by
  unfold Obligations.FlushKeepsTheRegionUnlessItCompletes
  intro s hs hh hd
  obtain ⟨hmode, hpd, hv, hbs, hvop, htc, hdisp, he, hmark, -⟩ := runFlush_sameSettings hh hd
  exact ⟨runFlush s, exec_ready hs rfl rfl, runFlush_responds s,
    ⟨hmode.trans hh, hpd, hv, hbs, hvop, htc, hdisp, he, hmark⟩, fun b c _ hc => runFlush_dram hh hd b hc,
    runFlush_frame s⟩

/-- Settles O45: the failed FLUSH kept the region, the framebuffer and every byte outside the region, so the completed one
finds the same work to do. -/
theorem aRetriedFlushResynchronisesTheRegion : Obligations.ARetriedFlushResynchronisesTheRegion := by
  unfold Obligations.ARetriedFlushResynchronisesTheRegion
  intro s t u hs hh hd ht herr hu hok
  obtain rfl := eq_runFlush_of_exec hs ht
  obtain rfl := eq_runFlush_of_exec (runFlush_ready hs) hu
  have hd' : (runFlush s).dEmpty = false := by simpa using (runFlush_dEmpty_iff herr).not
  have hh' : (runFlush s).ctl.h = false := (runFlush_sameSettings hh hd).1.trans hh
  refine ⟨by rw [runFlush_fb, runFlush_fb], fun b c _ hc => ?_⟩
  have hsecond := runFlush_dram_of_respond_ok hh' hd' hok (b := b) hc
  rw [runFlush_inRegion_iff, runFlush_fb] at hsecond
  obtain ⟨hin, hout⟩ := hsecond
  have hfirst : ¬ InRegion s b c → (runFlush s).ctl.dram b c = s.ctl.dram b c := fun hn =>
    (runFlush_dram hh hd b hc).resolve_right fun ⟨hr, _⟩ => hn hr
  exact ⟨hin, fun hn => (hout hn).trans (hfirst hn)⟩

/-! ## A second FLUSH -/

/-- In a ready block a list of READ_PIXELs writes the response port alone (R160). -/
theorem execAll_readPixels (ps : List (Int × Int)) {s : State} (hs : Ready s) :
    ∃ responses, execAll (ps.map fun p => .readPixel p.1 p.2) s = .next { s with responses := responses } := by
  induction ps generalizing s with
  | nil => exact ⟨s.responses, rfl⟩
  | cons p rest ih =>
    have hready : Ready (runReadPixel p.1 p.2 s) := hs
    obtain ⟨responses, h⟩ := ih hready
    exact ⟨responses, by rw [List.map_cons, execAll, exec_ready hs rfl rfl]; exact h⟩

/-- Settles O43: the first FLUSH leaves the region empty, READ_PIXELs keep it so, and FLUSH of an empty region is its
response alone. -/
theorem aSecondFlushIsSilent : Obligations.ASecondFlushIsSilent := by
  unfold Obligations.ASecondFlushIsSilent
  intro s t ps hs h hok
  obtain rfl := eq_runFlush_of_exec hs h
  have he : (runFlush s).dEmpty = true := (runFlush_dEmpty_iff hok).2 rfl
  have hready := runFlush_ready hs
  obtain ⟨responses, hreads⟩ := execAll_readPixels ps hready
  exact ⟨_, _, hreads, flushOfAnEmptyRegionIsSilent _ hready he, rfl, rfl, rfl⟩

/-! ## The data stream at the controller -/

/-- Settles O54: the stream's address range is the columns from the counter on, in the addressed bank. -/
theorem aDataStreamFillsConsecutiveColumns : Obligations.ADataStreamFillsConsecutiveColumns := by
  unfold Obligations.ADataStreamFillsConsecutiveColumns
  intro c bytes h
  obtain ⟨-, hread⟩ := Ctl.deliver_data bytes c h
  refine ⟨fun j hj => ?_, fun b col _ hcol hout => ?_⟩ <;> rw [Ctl.dram, hread, Ctl.dataAddr]
  · have haddr : cellAddr c.y.val (c.x.val + j) = cellAddr c.y.val c.x.val + j := (Nat.add_assoc _ _ _).symm
    rw [haddr, if_pos (by omega), Nat.add_sub_cancel_left, List.getD_eq_getElem _ _ hj]
  · rw [if_neg (by unfold cellAddr Config.cols; omega), Ctl.dram]

end Sys2Proof.Machine
end

section
/-! The controller's commands: what each makes of its byte in basic and in extended mode, and which bytes mark the run
(44_controller_commands.md). -/

namespace Sys2Proof.Machine

/-! ## Each command by mode -/

theorem Ctl.functionSet_refused {pd v : Bool} (hpv : pd = true ∨ v = true) (h : Bool) (c : Ctl) :
    c.functionSet pd v h = c.refuse :=
  if_pos (by simpa using hpv)

theorem Ctl.displayControl_basic {c : Ctl} (h : c.h = false) (d e : Bool) :
    c.displayControl d e = { c with d := d, e := e } := by
  simp [Ctl.displayControl, h]

theorem Ctl.displayControl_extended {c : Ctl} (h : c.h = true) (d e : Bool) : c.displayControl d e = c.corrupt :=
  if_pos h

theorem Ctl.setY_basic {c : Ctl} (h : c.h = false) {y : BitVec 3} (hy : y.toNat < 6) :
    c.setY y = { c with y := ⟨y.toNat, hy⟩ } := by
  simp [Ctl.setY, h, hy]

theorem Ctl.setY_refused {c : Ctl} {y : BitVec 3} (h : c.h = true ∨ 5 < y.toNat) : c.setY y = c.refuse := by
  obtain h | h := h
  · exact if_pos h
  · rw [Ctl.setY, dif_neg (by omega), ite_self]

theorem Ctl.takeX_in (c : Ctl) {x : BitVec 7} (hx : x.toNat < 84) : c.takeX x = { c with x := ⟨x.toNat, hx⟩ } :=
  dif_pos hx

theorem Ctl.takeX_out (c : Ctl) {x : BitVec 7} (hx : 83 < x.toNat) : c.takeX x = c.refuse :=
  dif_neg (by omega)

theorem Ctl.setX_basic {c : Ctl} (h : c.h = false) (x : BitVec 7) : c.setX x = c.takeX x := by
  simp [Ctl.setX, h]

/-- SET_X and SET_VOP are two names of one byte (R212, R215). -/
theorem Ctl.setVop_eq_setX (n : BitVec 7) (c : Ctl) : c.setVop n = c.setX n := rfl

theorem Ctl.setX_extended {c : Ctl} (h : c.h = true) (x : BitVec 7) : c.setX x = { c with vop := x } :=
  if_pos h

theorem Ctl.tempControl_extended {c : Ctl} (h : c.h = true) (tc : BitVec 2) : c.tempControl tc = { c with tc := tc } :=
  if_pos h

theorem Ctl.tempControl_basic {c : Ctl} (h : c.h = false) (tc : BitVec 2) : c.tempControl tc = c.refuse := by
  simp [Ctl.tempControl, h]

theorem Ctl.setBias_extended {c : Ctl} (h : c.h = true) (bs : BitVec 3) : c.setBias bs = { c with bs := bs } :=
  if_pos h

theorem Ctl.setBias_basic {c : Ctl} (h : c.h = false) (bs : BitVec 3) : c.setBias bs = c.refuse := by
  simp [Ctl.setBias, h]

/-- A data byte writes the display RAM and moves the counters (R220). -/
theorem Ctl.data_frame (v : Byte) (c : Ctl) :
    c.data v = { c with
      ram := (c.data v).ram, x := (c.data v).x, y := (c.data v).y, draws := (c.data v).draws } := by
  unfold Ctl.data Ctl.advance
  split <;> rfl

/-! ## The instructions that run them -/

theorem exec_of_run {i : Instr} {s : State} {c : Ctl} (hi : i.isRequest = false) (h : s.ctl.run i = c) :
    exec i s = .next { s with ctl := c } := by
  rw [exec_controller hi, h]

/-- A refused byte marks the run and touches the controller alone (R230). -/
theorem exec_refuses {i : Instr} {s : State} (hi : i.isRequest = false) (h : s.ctl.run i = s.ctl.refuse) :
    ∃ t, exec i s = .next t ∧ t.ctl.refusal = true ∧ t = { s with ctl := t.ctl } :=
  ⟨_, exec_of_run hi h, rfl, rfl⟩

/-- Settles O47, by the two modes. -/
theorem setBiasNeedsExtendedMode : Obligations.SetBiasNeedsExtendedMode := by
  unfold Obligations.SetBiasNeedsExtendedMode
  intro s bs
  exact ⟨fun h => exec_of_run rfl (Ctl.setBias_extended h bs), fun h => exec_refuses rfl (Ctl.setBias_basic h bs)⟩

/-- Settles O48, by the two modes. -/
theorem tempControlNeedsExtendedMode : Obligations.TempControlNeedsExtendedMode := by
  unfold Obligations.TempControlNeedsExtendedMode
  intro s tc
  exact ⟨fun h => exec_of_run rfl (Ctl.tempControl_extended h tc), fun h => exec_refuses rfl (Ctl.tempControl_basic h tc)⟩

/-- Settles O49: either name runs SET_X's function, which the mode and the range of the column split. -/
theorem setXAndSetVopDifferByTheModeAlone : Obligations.SetXAndSetVopDifferByTheModeAlone := by
  unfold Obligations.SetXAndSetVopDifferByTheModeAlone
  intro s n i hname
  obtain ⟨hi, hrun⟩ : i.isRequest = false ∧ s.ctl.run i = s.ctl.setX n := by
    obtain rfl | rfl := hname
    · exact ⟨rfl, rfl⟩
    · exact ⟨rfl, Ctl.setVop_eq_setX n s.ctl⟩
  refine ⟨fun h => exec_of_run hi ?_, fun h hn => exec_of_run hi ?_, fun h hn => exec_refuses hi ?_⟩
  · rw [hrun, Ctl.setX_extended h]
  · rw [hrun, Ctl.setX_basic h, Ctl.takeX_in]
  · rw [hrun, Ctl.setX_basic h, Ctl.takeX_out _ hn]

theorem exec_setX_basic {s : State} (h : s.ctl.h = false) {x : BitVec 7} (hx : x.toNat < 84) :
    exec (.setX x) s = .next { s with ctl := { s.ctl with x := ⟨x.toNat, hx⟩ } } :=
  exec_of_run rfl ((Ctl.setX_basic h x).trans (Ctl.takeX_in s.ctl hx))

theorem exec_setY_basic {s : State} (h : s.ctl.h = false) {y : BitVec 3} (hy : y.toNat < 6) :
    exec (.setY y) s = .next { s with ctl := { s.ctl with y := ⟨y.toNat, hy⟩ } } :=
  exec_of_run rfl (Ctl.setY_basic h hy)

theorem execAll_pair {i j : Instr} {s t u : State} (hi : exec i s = .next t) (hj : exec j t = .next u) :
    execAll [i, j] s = .next u := by
  simp [execAll, hi, hj]

/-- Settles O50: each address command writes its own counter, so in either order both hold their operands. -/
theorem setYMovesTheBankCounterAlone : Obligations.SetYMovesTheBankCounterAlone := by
  unfold Obligations.SetYMovesTheBankCounterAlone
  refine ⟨fun s y hy h => exec_setY_basic h (Nat.lt_succ_of_le hy),
    fun s y h => exec_refuses rfl (Ctl.setY_refused h), fun s x y h hx hy => ?_⟩
  have hx : x.toNat < 84 := Nat.lt_succ_of_le hx
  have hy : y.toNat < 6 := Nat.lt_succ_of_le hy
  have hxy := exec_setY_basic (s := { s with ctl := { s.ctl with x := ⟨x.toNat, hx⟩ } }) h hy
  have hyx := exec_setX_basic (s := { s with ctl := { s.ctl with y := ⟨y.toNat, hy⟩ } }) h hx
  exact ⟨_, execAll_pair (exec_setX_basic h hx) hxy, execAll_pair (exec_setY_basic h hy) hyx, rfl, rfl⟩

/-- Settles O51, by the two modes: in extended mode no operand is read. -/
theorem displayControlNeedsBasicMode : Obligations.DisplayControlNeedsBasicMode := by
  unfold Obligations.DisplayControlNeedsBasicMode
  intro s d e
  refine ⟨fun h => exec_of_run rfl (Ctl.displayControl_basic h d e), fun h => ?_⟩
  have hexec (d e : Bool) : exec (.displayControl d e) s = .next { s with ctl := s.ctl.corrupt } :=
    exec_of_run rfl (Ctl.displayControl_extended h d e)
  exact ⟨⟨_, hexec d e, rfl⟩, fun d' e' => (hexec d e).trans (hexec d' e').symm⟩

/-- Settles O52: NOP is the identity on the controller. -/
theorem nopChangesNothing : Obligations.NopChangesNothing := by
  unfold Obligations.NopChangesNothing
  exact fun s => exec_controller (i := .nop) rfl s

/-- Settles O53, by the rules of a data byte below column 83 and at it. -/
theorem aDataByteLandsAndTheCountersAdvance : Obligations.ADataByteLandsAndTheCountersAdvance := by
  unfold Obligations.ADataByteLandsAndTheCountersAdvance
  intro s v
  refine ⟨_, exec_controller rfl s, Ctl.ramRead_data v s.ctl, fun h => Ctl.data_below h v, fun h => ?_, ?_⟩
  · exact congrArg Fin.val (Ctl.data_wrap h v).1
  · exact congrArg (fun c => { s with ctl := c }) (Ctl.data_frame v s.ctl)

/-! ## The mode bit -/

theorem Ctl.setY_refused_or_h (y : BitVec 3) (c : Ctl) : c.setY y = c.refuse ∨ (c.setY y).h = c.h := by
  by_cases h : c.h = true ∨ 5 < y.toNat
  · exact .inl (Ctl.setY_refused h)
  · obtain ⟨hh, hy⟩ : c.h = false ∧ y.toNat < 6 := by simpa [Nat.lt_succ_iff] using h
    exact .inr (by rw [Ctl.setY_basic hh hy])

theorem Ctl.setX_refused_or_h (x : BitVec 7) (c : Ctl) : c.setX x = c.refuse ∨ (c.setX x).h = c.h := by
  cases h : c.h with
  | true => exact .inr (by rw [Ctl.setX_extended h, h])
  | false =>
    rw [Ctl.setX_basic h]
    by_cases hx : x.toNat < 84
    · exact .inr (by rw [Ctl.takeX_in c hx, h])
    · exact .inl (Ctl.takeX_out c (by omega))

/-- FUNCTION_SET apart, a command that is not refused leaves the mode as it was (R210). -/
theorem Ctl.run_refused_or_h {i : Instr} (hi : ∀ pd v h, i ≠ .functionSet pd v h) (c : Ctl) :
    c.run i = c.refuse ∨ (c.run i).h = c.h := by
  cases i with
  | functionSet pd v h => exact absurd rfl (hi pd v h)
  | displayControl d e => exact .inr (by rw [Ctl.run, Ctl.displayControl]; split <;> rfl)
  | setY y => exact Ctl.setY_refused_or_h y c
  | setX x => exact Ctl.setX_refused_or_h x c
  | setVop vop => exact Ctl.setX_refused_or_h vop c
  | tempControl tc =>
    cases h : c.h with
    | true => exact .inr (by rw [Ctl.run, Ctl.tempControl_extended h, h])
    | false => exact .inl (Ctl.tempControl_basic h tc)
  | setBias bs =>
    cases h : c.h with
    | true => exact .inr (by rw [Ctl.run, Ctl.setBias_extended h, h])
    | false => exact .inl (Ctl.setBias_basic h bs)
  | data v => exact .inr (Ctl.data_same v c).1
  | _ => exact .inr rfl

/-- Settles O46: the operand forms of FUNCTION_SET are its function's two branches, and every other command keeps the mode
or is refused. -/
theorem functionSetSelectsTheMode : Obligations.FunctionSetSelectsTheMode := by
  unfold Obligations.FunctionSetSelectsTheMode
  refine ⟨fun s h => exec_of_run rfl rfl, fun s pd v h hpv => exec_refuses rfl (Ctl.functionSet_refused hpv h s.ctl),
    fun s t i hi hne hexec hmark => ?_⟩
  rw [exec_controller hi] at hexec
  cases hexec
  obtain hrefused | hh := Ctl.run_refused_or_h hne s.ctl
  · rw [hrefused] at hmark; cases hmark
  · exact hh

end Sys2Proof.Machine
end

section
/-! The controller's bytes: what reaches it and when, which bytes mark the run, and the bytes of INIT
(44_controller_commands.md). -/

namespace Sys2Proof.Machine

/-! ## A byte at the controller -/

theorem Ctl.receive_of_decode {c : Ctl} {b : Byte} {i : Instr} (h : decodeCommand c.h b = .instr i) :
    c.receive .low b = c.run i := by
  simp [Ctl.receive, byteCode, decode, h]

theorem Ctl.receive_reserved {c : Ctl} {b : Byte} (h : decodeCommand c.h b = .reservedByte b) :
    c.receive .low b = c.refuse := by
  simp [Ctl.receive, byteCode, decode, h]

/-- The rows of R80 with operands that R230 refuses, by the 256 bytes. -/
theorem decodeCommand_functionSet : ∀ (h : Bool) (b : Byte), b &&& 0xF8#8 = 0x20#8 →
    decodeCommand h b = .instr (.functionSet (b.getLsbD 2) (b.getLsbD 1) (b.getLsbD 0)) := by decide

theorem decodeCommand_setY : ∀ {h : Bool}, h = false → ∀ b : Byte, b &&& 0xF8#8 = 0x40#8 →
    decodeCommand h b = .instr (.setY (b.extractLsb' 0 3)) := by decide

theorem decodeCommand_setX : ∀ {h : Bool}, h = false → ∀ b : Byte, b &&& 0x80#8 = 0x80#8 →
    decodeCommand h b = .instr (.setX (b.extractLsb' 0 7)) := by decide

/-- Settles O57: each byte of INIT finds the mode its command needs, since the FUNCTION_SET before it set that mode. -/
theorem theInitBytesReachTheKnownState : Obligations.TheInitBytesReachTheKnownState := by
  unfold Obligations.TheInitBytesReachTheKnownState
  intro c inv contrast
  show Known (c.deliver .low [cmdFsetExt, cmdBias, cmdVop contrast, cmdFsetBasic, cmdDctl inv]) inv contrast
  simp only [Ctl.deliver_cons, Ctl.deliver_nil]
  rw [Ctl.receive_cmdFsetExt, Ctl.receive_cmdBias rfl, Ctl.receive_cmdVop rfl, Ctl.receive_cmdFsetBasic,
    Ctl.receive_cmdDctl rfl]
  exact ⟨rfl, rfl, rfl, rfl, rfl, rfl, rfl⟩

/-! ## A step on a bench byte -/

theorem step_marked {s : State} (h : s.ctl.refusal = true) : step s = .refused .markedRun := by
  simp [step, fetch, h]

theorem step_deselectedByte {s : State} {b : Byte} {rest : List Byte} (hm : s.ctl.refusal = false)
    (hb : s.busIn = b :: rest) (hcs : s.cs = .high) : step s = .next { s with busIn := rest } := by
  simp [step, fetch, hm, hb, hcs]

/-- A step on a byte inside a transaction (R205): what the byte decodes to runs, a reserved byte is refused. -/
theorem step_selectedByte {s : State} {b : Byte} {rest : List Byte} (hm : s.ctl.refusal = false)
    (hb : s.busIn = b :: rest) (hcs : s.cs = .low) :
    (∀ i, decode s.ctl.h (byteCode s.dc b) = .instr i → step s = exec i { s with busIn := rest }) ∧
    (decode s.ctl.h (byteCode s.dc b) = .reservedByte b → step s = .next (refuseByte { s with busIn := rest })) := by
  constructor
  · intro i hd; simp [step, fetch, hm, hb, hcs, hd, Fetched.ofDecoded]
  · intro hd; simp [step, fetch, hm, hb, hcs, hd, Fetched.ofDecoded]

/-- What has a byte's code has no coordinates to check. -/
theorem Instr.wf_of_encode_byte {i : Instr} {dc : Level} {b : Byte} (h : encode i = byteCode dc b) : i.wf = true := by
  cases i with
  | setPixel | readPixel => cases dc <;> cases h
  | _ => rfl

/-- Settles O8: the code decodes to the instruction it encodes, and the step runs what it decodes to. -/
theorem aStepRunsTheControllerByte : Obligations.AStepRunsTheControllerByte := by
  unfold Obligations.AStepRunsTheControllerByte
  intro s i b rest hmark hbus hcs hmode hcode
  exact (step_selectedByte hmark hbus hcs).1 i (decode_eq_instr_iff.2 ⟨hcode, Instr.wf_of_encode_byte hcode, hmode⟩)

/-- Settles O56: the step on a reserved byte is `refuseByte`, and a marked run fetches nothing. -/
theorem aMarkedRunTakesNoStep : Obligations.AMarkedRunTakesNoStep := by
  unfold Obligations.AMarkedRunTakesNoStep
  refine ⟨fun s b rest hmark hbus hcs hdc hres => ?_, fun s => step_marked⟩
  exact ⟨_, (step_selectedByte hmark hbus hcs).2 (by rw [hdc]; exact hres), rfl, rfl⟩

/-! ## A request at the controller -/

/-- A request that answers next reached the controller through a walk of bus operations alone, the empty one where it
makes no bus event (R202). -/
theorem exec_request_walk {i : Instr} {s t : State} (hi : i.isRequest = true) (h : exec i s = .next t) :
    ∃ (ops : List BusOp) (u : State), u.ctl = s.ctl ∧ u.trace = s.trace ∧
      t.ctl = (runOps ops u).2.ctl ∧ t.trace = (runOps ops u).2.trace := by
  obtain ⟨hc, -⟩ | ⟨-, -, ⟨reason, -, rfl⟩ | ⟨-, rfl⟩⟩ := exec_next h
  · rw [hi] at hc; cases hc
  · exact ⟨[], s, rfl, rfl, rfl, rfl⟩
  obtain ⟨inv, contrast, rfl⟩ | ⟨x, y, on, rfl⟩ | rfl | ⟨x, y, rfl⟩ | rfl := Instr.request_cases hi
  · refine ⟨initOps inv contrast, { s with cfgInv := inv, cfgContrast := contrast }, rfl, rfl, ?_⟩
    obtain ⟨_, -, rfl, ⟨-, he⟩ | ⟨-, he⟩⟩ := runInit_cases inv contrast s <;> rw [requestEffect, he] <;> exact ⟨rfl, rfl⟩
  · exact ⟨[], s, rfl, rfl, by rw [requestEffect, runSetPixel_frame]; exact ⟨rfl, rfl⟩⟩
  · exact ⟨[], s, rfl, rfl, rfl, rfl⟩
  · exact ⟨[], s, rfl, rfl, rfl, rfl⟩
  · obtain ⟨-, he⟩ | ⟨-, _, -, rfl, ⟨-, he⟩ | ⟨-, he⟩⟩ := runFlush_cases s
    · exact ⟨[], s, rfl, rfl, by rw [requestEffect, he]; exact ⟨rfl, rfl⟩⟩
    · exact ⟨flushOps s, s, rfl, rfl, by rw [requestEffect, he]; exact ⟨rfl, rfl⟩⟩
    · exact ⟨flushOps s, s, rfl, rfl, by rw [requestEffect, he]; exact ⟨rfl, rfl⟩⟩

/-- Every walk but the empty one leaves an event (R106). -/
theorem runOps_eq_nil_of_trace_eq {ops : List BusOp} {s : State} (h : (runOps ops s).2.trace = s.trace) : ops = [] := by
  obtain ⟨-, ht⟩ | ⟨pre, op, post, -, -, ht⟩ := runOps_trace ops s
  · simpa [ht] using h
  · simp [ht] at h

/-- Settles O9: a walk without an event is the empty one. -/
theorem theControllerTakesNoByteOutsideATransaction : Obligations.TheControllerTakesNoByteOutsideATransaction := by
  unfold Obligations.TheControllerTakesNoByteOutsideATransaction
  refine ⟨fun s b rest => step_deselectedByte, fun i s t hi h htrace => ?_⟩
  obtain ⟨ops, u, huctl, hutrace, hctl, ht⟩ := exec_request_walk hi h
  obtain rfl := runOps_eq_nil_of_trace_eq (ops := ops) (s := u) (by rw [← ht, htrace, hutrace])
  rw [hctl, runOps_nil, huctl]

/-! ## The refusal mark -/

/-- Settles O55: the refused operands are their functions' other branches; and neither a command nor a walk of bus
operations clears the mark. -/
theorem aRefusedByteMarksTheRun : Obligations.ARefusedByteMarksTheRun := by
  unfold Obligations.ARefusedByteMarksTheRun
  constructor
  · intro c b hrefused
    have hb : c.receive .low b = c.refuse := by
      obtain ⟨hrow, hop⟩ | ⟨hh, hrow, hy⟩ | ⟨hh, hrow, hx⟩ | hres := hrefused
      · exact (Ctl.receive_of_decode (decodeCommand_functionSet c.h b hrow)).trans (Ctl.functionSet_refused hop _ c)
      · exact (Ctl.receive_of_decode (decodeCommand_setY hh b hrow)).trans (Ctl.setY_refused (.inr hy))
      · exact (Ctl.receive_of_decode (decodeCommand_setX hh b hrow)).trans
          ((Ctl.setX_basic hh _).trans (Ctl.takeX_out c hx))
      · exact Ctl.receive_reserved hres
    rw [hb, Ctl.refuse_refusal]
  · intro i s t h hmark
    cases hi : i.isRequest with
    | false => rw [exec_controller hi] at h; cases h; exact Ctl.run_refusal i hmark
    | true =>
      obtain ⟨ops, u, huctl, -, hctl, -⟩ := exec_request_walk hi h
      rw [hctl]
      exact runOps_refusal (by rw [huctl]; exact hmark)

theorem admitRequest_ne_refused (i : Instr) (s : State) (run : State → State) (r : Refusal) :
    admitRequest i s run ≠ .refused r := by
  unfold admitRequest
  cases s.faultReg with
  | some f => simp
  | none => cases admission (isInit i) s.phase <;> simp

/-- Every instruction has a meaning. -/
theorem exec_ne_refused (i : Instr) (s : State) (r : Refusal) : exec i s ≠ .refused r := by
  cases hi : i.isRequest with
  | true => rw [exec_request hi]; exact admitRequest_ne_refused i s _ r
  | false => rw [exec_controller hi]; simp

theorem Fetched.ofDecoded_ne_marked (s : State) (d : Decoded) : Fetched.ofDecoded s d ≠ .marked := by
  cases d <;> simp [Fetched.ofDecoded]

theorem fetch_ne_marked {s : State} (h : s.ctl.refusal = false) : fetch s ≠ .marked := by
  unfold fetch
  rw [h, if_neg Bool.false_ne_true]
  cases s.busIn with
  | cons b rest =>
    cases s.cs with
    | high => simp
    | low => exact Fetched.ofDecoded_ne_marked _ _
  | nil =>
    cases s.faultReg with
    | some f => simp
    | none =>
      cases s.requests with
      | nil => simp
      | cons w rest => exact Fetched.ofDecoded_ne_marked _ _

/-- The refusal mark is the one cause of a refused step (R230). -/
theorem step_ne_refused {s : State} (h : s.ctl.refusal = false) (r : Refusal) : step s ≠ .refused r := by
  have hm := fetch_ne_marked h
  unfold step
  cases hf : fetch s with
  | marked => exact absurd hf hm
  | run i t => exact exec_ne_refused i t r
  | _ => simp

/-- Settles O19: the invariant, which every request keeps, holds the mark clear. -/
theorem noRequestOfTheBlockIsRefused : Obligations.NoRequestOfTheBlockIsRefused := by
  unfold Obligations.NoRequestOfTheBlockIsRefused
  exact fun s hs => ⟨step_ne_refused hs.unmarked, fun i t hi h => (hs.exec hi h).unmarked⟩

/-! ## The glass -/

theorem Ctl.glassOn_blank {c : Ctl} (hd : c.d = false) (he : c.e = false) (b : Fin 6) (col : Fin 84) (i : Fin 8) :
    c.glassOn b col i = false := by
  simp [Ctl.glassOn, hd, he]

theorem Ctl.glassOn_normal {c : Ctl} (hd : c.d = true) (he : c.e = false) (b : Fin 6) (col : Fin 84) (i : Fin 8) :
    c.glassOn b col i = (c.dram b.val col.val).getLsbD i.val := by
  simp [Ctl.glassOn, hd, he, getBit]

theorem Ctl.glassOn_allOn {c : Ctl} (hd : c.d = false) (he : c.e = true) (b : Fin 6) (col : Fin 84) (i : Fin 8) :
    c.glassOn b col i = true := by
  simp [Ctl.glassOn, hd, he]

theorem Ctl.glassOn_inverted {c : Ctl} (hd : c.d = true) (he : c.e = true) (b : Fin 6) (col : Fin 84) (i : Fin 8) :
    c.glassOn b col i = !(c.dram b.val col.val).getLsbD i.val := by
  simp [Ctl.glassOn, hd, he, getBit]

/-- Settles O58, by the four display modes and the two polarities of the glass. -/
theorem theGlassShowsTheDisplayMode : Obligations.TheGlassShowsTheDisplayMode := by
  unfold Obligations.TheGlassShowsTheDisplayMode
  intro c b col i
  refine ⟨fun hd he => Ctl.glassOn_blank hd he b col i, fun hd he => Ctl.glassOn_normal hd he b col i,
    fun hd he => Ctl.glassOn_allOn hd he b col i, fun hd he => Ctl.glassOn_inverted hd he b col i,
    fun hdark => ?_, fun hlight => ?_⟩
  · rw [Ctl.glassDark, hdark, beq_true]
  · rw [Ctl.glassDark, hlight, beq_false]

end Sys2Proof.Machine
end

section
/-! Exceptions (60_exceptions.md): the admission check line by line, what a raised fault leaves, and the one response of
every request that runs. -/

namespace Sys2Proof.Machine

/-! ## The admission check -/

theorem isInit_eq_true_iff {i : Instr} : isInit i = true ↔ ∃ inv c, i = .init inv c := by
  cases i <;> simp [isInit]

theorem isInit_eq_false_iff {i : Instr} : isInit i = false ↔ ∀ inv c, i ≠ .init inv c := by
  cases i <;> simp [isInit]

/-- The requests that the phase lines let run (R242). -/
theorem admission_eq_none_iff {i : Instr} {p : Phase} : admission (isInit i) p = none ↔
    (p = .uninit ∧ ∃ inv c, i = .init inv c) ∨ (p = .ready ∧ ∀ inv c, i ≠ .init inv c) := by
  rw [← isInit_eq_true_iff, ← isInit_eq_false_iff]
  cases isInit i with
  | true => simp [admission_init_eq_none]
  | false => simp [admission_other_eq_none]

/-- The causes of the three faults of the phase lines (R241, R242). -/
theorem admission_eq_some {i : Instr} {p : Phase} {reason : FaultReason} (h : admission (isInit i) p = some reason) :
    (reason = .notInitialized ∧ p = .uninit ∧ ∀ inv c, i ≠ .init inv c) ∨
      (reason = .reinit ∧ p = .ready ∧ ∃ inv c, i = .init inv c) ∨ (reason = .useAfterFail ∧ p = .failed) := by
  rw [← isInit_eq_true_iff, ← isInit_eq_false_iff]
  cases p with
  | failed => exact .inr (.inr ⟨(Option.some.inj h).symm, rfl⟩)
  | uninit =>
    cases hi : isInit i with
    | true => rw [hi] at h; cases h
    | false => rw [hi] at h; exact .inl ⟨(Option.some.inj h).symm, rfl, rfl⟩
  | ready =>
    cases hi : isInit i with
    | true => rw [hi] at h; exact .inr (.inl ⟨(Option.some.inj h).symm, rfl, rfl⟩)
    | false => rw [hi] at h; cases h

/-- A request that the phase lines let run is its effect, and the block is not halted after it (R240, R242). -/
theorem exec_admitted {i : Instr} {s : State} (hi : i.isRequest = true) (hfault : s.faultReg = none)
    (hadm : (s.phase = .uninit ∧ ∃ inv c, i = .init inv c) ∨ (s.phase = .ready ∧ ∀ inv c, i ≠ .init inv c)) :
    exec i s = .next (requestEffect i s) ∧ (requestEffect i s).faultReg = none := by
  rw [exec_request hi, admitRequest_runs hfault (admission_eq_none_iff.2 hadm), requestEffect_faultReg]
  exact ⟨rfl, hfault⟩

/-! ## A step on a word that decodes -/

/-- What a request word decodes to is one of the five requests (R72). -/
theorem isRequest_of_decodeRequest {w : Word} {i : Instr} (h : decodeRequest w = .instr i) : i.isRequest = true := by
  obtain ⟨j, hj, hreq⟩ | hill := decodeRequest_shape w
  · obtain rfl : j = i := Decoded.instr.inj (hj.symm.trans h)
    exact hreq
  · rw [hill] at h; cases h

/-- The word a fault records is the word that arrived (R241). -/
theorem requestWord_of_decodeRequest {w : Word} {i : Instr} (h : decodeRequest w = .instr i) : requestWord i = w := by
  rw [requestWord, (encode_of_decodeRequest h).1]

section
variable {s : State} {w : Word} {rest : List Word} {i : Instr}

/-- A phase line that raises (R242): FAULT takes the reason and the word, and nothing else changes but the word taken. -/
theorem step_raises {reason : FaultReason} (hmark : s.ctl.refusal = false) (hbus : s.busIn = [])
    (hfault : s.faultReg = none) (hreq : s.requests = w :: rest) (hdec : decodeRequest w = .instr i)
    (ha : admission (isInit i) s.phase = some reason) :
    step s = .next { s with requests := rest, faultReg := some ⟨reason, w⟩ } := by
  rw [(step_request hmark hbus hfault hreq).1 i hdec, exec_request (isRequest_of_decodeRequest hdec),
    admitRequest_raises (s := { s with requests := rest }) hfault ha, requestWord_of_decodeRequest hdec]
  rfl

/-- All that a step on a word can be which leaves FAULT set (R241). -/
theorem step_faulted {t : State} (hmark : s.ctl.refusal = false) (hbus : s.busIn = []) (hfault : s.faultReg = none)
    (hreq : s.requests = w :: rest) (h : step s = .next t) (ht : t.faultReg ≠ none) :
    ∃ reason, t = { s with requests := rest, faultReg := some ⟨reason, w⟩ } ∧
      ((reason = .illegalRequest ∧ decodeRequest w = .illegalRequest w) ∨
        ∃ i, decodeRequest w = .instr i ∧ admission (isInit i) s.phase = some reason) := by
  obtain ⟨hinstr, hillegal⟩ := step_request hmark hbus hfault hreq
  obtain ⟨i, hdec, hi⟩ | hdec := decodeRequest_shape w
  · rw [hinstr i hdec] at h
    obtain ⟨hc, -⟩ | ⟨-, -, ⟨reason, ha, rfl⟩ | ⟨-, rfl⟩⟩ := exec_next h
    · rw [hi] at hc; cases hc
    · refine ⟨reason, ?_, .inr ⟨i, hdec, ha⟩⟩
      rw [requestWord_of_decodeRequest hdec]; rfl
    · exact absurd (by rw [requestEffect_faultReg]; exact hfault) ht
  · rw [hillegal hdec] at h
    exact ⟨.illegalRequest, (Host.Outcome.next.inj h).symm, .inl ⟨rfl, hdec⟩⟩

end

/-- Settles O7: decoding undoes the encoding, and the step runs what the word decodes to. -/
theorem aStepRunsTheRequestWord : Obligations.AStepRunsTheRequestWord := by
  unfold Obligations.AStepRunsTheRequestWord
  intro s i w rest hmark hbus hfault hwf hcode hreq
  exact (step_request hmark hbus hfault hreq).1 i (decodeRequest_of_encode hcode hwf)

/-- Settles O12: a halted block fetches no word, an illegal word raises, and a request meets `admission`. -/
theorem admissionFollowsItsLinesInOrder : Obligations.AdmissionFollowsItsLinesInOrder := by
  unfold Obligations.AdmissionFollowsItsLinesInOrder
  intro s w rest hmark hbus hreq
  refine ⟨fun r hr => step_halted hmark hbus hr, fun hfault => ?_⟩
  obtain ⟨hinstr, hillegal⟩ := step_request hmark hbus hfault hreq
  refine ⟨hillegal, fun i hdec => ?_⟩
  have raises {reason} (ha : admission (isInit i) s.phase = some reason) :=
    step_raises hmark hbus hfault hreq hdec ha
  refine ⟨fun hp => raises ?_, fun hp hi => raises ?_, fun hp hi => raises ?_, fun hadm => ?_⟩
  · rw [hp]; rfl
  · rw [hp, isInit_eq_false_iff.2 hi]; rfl
  · rw [hp, isInit_eq_true_iff.2 hi]; rfl
  · obtain ⟨hexec, hnone⟩ :=
      exec_admitted (s := { s with requests := rest }) (isRequest_of_decodeRequest hdec) hfault hadm
    exact ⟨_, (hinstr i hdec).trans hexec, hexec, hnone⟩

/-- Settles O13: a step that leaves FAULT set raised it, by the decoder or by a phase line, and a block that holds a
fault is halted. -/
theorem faultEntryChangesOnlyTheFaultRegister : Obligations.FaultEntryChangesOnlyTheFaultRegister := by
  unfold Obligations.FaultEntryChangesOnlyTheFaultRegister
  intro s t w rest hmark hbus hfault hreq h ht
  obtain ⟨reason, rfl, hcause⟩ := step_faulted hmark hbus hfault hreq h ht
  refine ⟨reason, rfl, step_halted hmark hbus rfl, ?_⟩
  obtain ⟨rfl, hdec⟩ | ⟨i, hdec, ha⟩ := hcause
  · exact .inl ⟨rfl, rfl, hdec⟩
  obtain ⟨rfl, hp, hi⟩ | ⟨rfl, hp, inv, c, rfl⟩ | ⟨rfl, hp⟩ := admission_eq_some ha
  · exact .inr (.inl ⟨rfl, rfl, hp, i, hdec, hi⟩)
  · exact .inr (.inr (.inl ⟨rfl, rfl, hp, inv, c, hdec⟩))
  · exact .inr (.inr (.inr ⟨rfl, rfl, hp, i, hdec⟩))

/-! ## How a request ends -/

/-- The value a request responds: READ_PIXEL's pixel, and 0 for every other (R240). -/
def responseValue (s : State) : Instr → Bool
  | .readPixel x y => pixelValue s.fb x y
  | _ => false

theorem responseValue_eq_false {i : Instr} (h : ∀ x y, i ≠ .readPixel x y) (s : State) : responseValue s i = false := by
  cases i with
  | readPixel x y => exact absurd rfl (h x y)
  | _ => rfl

/-- `t`'s trace is `s`'s with accepted events and then one refused event after it (R243). -/
def EndsAtRefusedEvent (s t : State) : Prop :=
  ∃ (evs : List BusEvent) (e : BusEvent), t.trace = s.trace ++ evs ++ [e] ∧ (∀ e' ∈ evs, e'.verdict = .ok) ∧
    e.verdict = .err

/-- A refused walk ends at its first refused event (R243, R245). -/
theorem runOps_endsAtRefusedEvent {ops : List BusOp} {s : State} (h : (runOps ops s).1 = .err) :
    EndsAtRefusedEvent s (runOps ops s).2 := by
  obtain ⟨hok, -⟩ | ⟨pre, op, post, -, -, ht⟩ := runOps_trace ops s
  · rw [h] at hok; cases hok
  · exact ⟨_, _, ht, by simp, by simp⟩

/-- What a request leaves that responds TRANSPORT_ERROR: INIT leaves FAILED, FLUSH keeps `fb` and the dirty registers
(R121, R176, R243). -/
def FailsAs (i : Instr) (s t : State) : Prop :=
  ((∃ inv c, i = .init inv c) ∧ t.phase = .failed) ∨
    (i = .flush ∧ t.fb = s.fb ∧ t.dEmpty = s.dEmpty ∧ t.dBmin = s.dBmin ∧ t.dBmax = s.dBmax ∧ t.dCmin = s.dCmin ∧
      t.dCmax = s.dCmax)

/-- `t` is where the request `i` ended: with one response more than in `s`, OK, or TRANSPORT_ERROR at a refused event
(R240, R243). -/
inductive RequestEnds (i : Instr) (s t : State) : Prop
  | ok (hr : t.responses = s.responses ++ [⟨.ok, responseValue s i⟩])
  | failed (hr : t.responses = s.responses ++ [⟨.transportError, responseValue s i⟩]) (he : EndsAtRefusedEvent s t)
      (hf : FailsAs i s t)

theorem runSetPixel_responses (x y : Int) (on : Bool) (s : State) :
    (runSetPixel x y on s).responses = s.responses ++ [⟨.ok, false⟩] := by
  unfold runSetPixel
  cases locate x y <;> simp

theorem runInit_requestEnds (inv : Bool) (contrast : BitVec 7) (s : State) :
    RequestEnds (.init inv contrast) s (runInit inv contrast s) := by
  cases hr : (initWalk inv contrast s).1 with
  | ok =>
    rw [runInit_of_accepted hr]
    exact .ok (by rw [State.respond_responses, initWalk_responses]; rfl)
  | err =>
    rw [runInit_of_refused hr]
    exact .failed (by rw [State.respond_responses, initWalk_responses]; rfl) (runOps_endsAtRefusedEvent hr)
      (.inl ⟨⟨_, _, rfl⟩, rfl⟩)

theorem runFlush_requestEnds (s : State) : RequestEnds .flush s (runFlush s) := by
  obtain ⟨-, he⟩ | ⟨-, t, hb, ht, ⟨-, he⟩ | ⟨herr, he⟩⟩ := runFlush_cases s <;> rw [he]
  · exact .ok rfl
  · exact .ok (by simp [hb.responses, responseValue])
  · refine .failed (by simp [hb.responses, responseValue]) ?_
      (.inr ⟨rfl, hb.fb, hb.dEmpty, hb.dBmin, hb.dBmax, hb.dCmin, hb.dCmax⟩)
    rw [ht]
    exact runOps_endsAtRefusedEvent herr

/-- The requests without bus events end with OK, and the other two by their walk (R240, R243). -/
theorem requestEffect_requestEnds {i : Instr} (hi : i.isRequest = true) (s : State) :
    RequestEnds i s (requestEffect i s) := by
  obtain ⟨inv, contrast, rfl⟩ | ⟨x, y, on, rfl⟩ | rfl | ⟨x, y, rfl⟩ | rfl := Instr.request_cases hi
  · exact runInit_requestEnds inv contrast s
  · exact .ok (runSetPixel_responses x y on s)
  · exact .ok rfl
  · exact .ok rfl
  · exact runFlush_requestEnds s

/-- What responds is a request that ran: a controller instruction and a raised fault respond nothing (R246). -/
theorem exec_next_of_responds {i : Instr} {s t : State} {r : Response} (h : exec i s = .next t)
    (hr : t.responses = s.responses ++ [r]) : i.isRequest = true ∧ t = requestEffect i s := by
  obtain ⟨-, rfl⟩ | ⟨hi, -, ⟨reason, -, rfl⟩ | ⟨-, rfl⟩⟩ := exec_next h
  · simp at hr
  · simp at hr
  · exact ⟨hi, rfl⟩

/-- Settles O21: an admitted request is its effect, which ends with OK or TRANSPORT_ERROR and the request's value. -/
theorem everyRequestThatRunsRespondsOnce : Obligations.EveryRequestThatRunsRespondsOnce := by
  unfold Obligations.EveryRequestThatRunsRespondsOnce
  intro i s hi hfault hadm
  obtain ⟨hexec, hnone⟩ := exec_admitted hi hfault hadm
  have hread : ∀ x y, i = .readPixel x y → responseValue s i = pixelValue s.fb x y := by rintro x y rfl; rfl
  cases requestEffect_requestEnds hi s with
  | ok hr => exact ⟨_, _, hexec, hr, hnone, .inl ⟨rfl, rfl⟩, hread, fun hne => responseValue_eq_false hne s⟩
  | failed hr => exact ⟨_, _, hexec, hr, hnone, .inr ⟨rfl, rfl⟩, hread, fun hne => responseValue_eq_false hne s⟩

/-- Settles O22: what responded is a request that ran, and the one end of a request with TRANSPORT_ERROR is at a
refused event. -/
theorem transportErrorComesFromTheFirstRefusedEvent : Obligations.TransportErrorComesFromTheFirstRefusedEvent := by
  unfold Obligations.TransportErrorComesFromTheFirstRefusedEvent
  intro i s t v h hr
  obtain ⟨hi, rfl⟩ := exec_next_of_responds h hr
  cases requestEffect_requestEnds hi s with
  | ok hok => rw [hok] at hr; simp at hr
  | failed _ he hf => exact ⟨he, hf⟩

end Sys2Proof.Machine
end

section
/-! Block reset and waiting: the values of the registers after block reset, the invariant's base case, and the step
without a request word (70_reset_and_hazards.md). -/

namespace Sys2Proof.Machine

/-! ## Waiting -/

theorem step_waiting {s : State} (hm : s.ctl.refusal = false) (hb : s.busIn = []) (hf : s.faultReg = none)
    (hr : s.requests = []) : step s = .next s := by
  simp [step, fetch, hm, hb, hf, hr]

/-- Settles O10, the rule of a step without a request word. -/
theorem theBlockWaitsForARequestWord : Obligations.TheBlockWaitsForARequestWord := by
  unfold Obligations.TheBlockWaitsForARequestWord
  intro s hm hb hf hr
  exact step_waiting hm hb hf hr

/-! ## Block reset -/

/-- Settles O15: each register has its value in `State.reset`, and a byte the empty framebuffer does not list reads
0x00. -/
theorem blockResetValues : Obligations.BlockResetValues := by
  unfold Obligations.BlockResetValues
  exact ⟨rfl, fbRead_nil, rfl, rfl, rfl, rfl, rfl, rfl⟩

/-- Outside the controller, block reset takes from the state before it nothing but what the host and the transport still
have to present (R271, log 20). -/
theorem State.blockReset_frame (s : State) :
    s.blockReset = { State.reset with
      ctl := s.blockReset.ctl
      requests := s.requests, answers := s.answers, transportDraws := s.transportDraws } := rfl

/-- Settles O16: none of these registers is among what block reset takes from the state before it, so each has its
value in `State.reset`. -/
theorem blockResetClearsTheFault : Obligations.BlockResetClearsTheFault := by
  unfold Obligations.BlockResetClearsTheFault
  intro s
  obtain ⟨hphase, hfb, hempty, hfault, hcs, hdc, hrst, htrace⟩ := blockResetValues
  rw [State.blockReset_frame]
  exact ⟨hfault, hphase, hfb, hempty, hcs, hdc, hrst, htrace⟩

/-- Settles O17: the phase is UNINIT, so nothing is drawn and no controller state is claimed; the memories and the dirty
region are empty. -/
theorem resetHasTheBlockInvariant : Obligations.ResetHasTheBlockInvariant := by
  unfold Obligations.ResetHasTheBlockInvariant
  have hphase : State.reset.phase = .uninit := rfl
  have hempty : State.reset.dEmpty = true := rfl
  exact
    { fbWf := reset_memories_wf.1
      ramWf := reset_memories_wf.2
      dirty := by simp [DirtyOrdered, hempty]
      blank := fun _ => ⟨rfl, hempty⟩
      known := by simp [hphase]
      released := fun _ => rfl
      deselected := rfl
      unmarked := rfl
      alone := rfl }

end Sys2Proof.Machine
end

section
/-! The listed words and bytes of the test vectors (95_test_vectors.md), as instances of the decoder's rules. -/

namespace Sys2Proof

/-- Settles O5: each word or byte that stands for an instruction is the code of it. The illegal word lies in no row of
the request table (R72), and the reserved byte in no basic-mode row of the command table (R80). -/
theorem wordsOfTheTestVectorsDecode : Obligations.WordsOfTheTestVectorsDecode := by
  unfold Obligations.WordsOfTheTestVectorsDecode
  have hillegal : decodeRequest 0x10000200#32 = .illegalRequest 0x10000200#32 := by
    obtain ⟨-, -, -, -, -, hother⟩ := requestsDecodeByMatchAndMask 0x10000200#32
    exact hother (by decide) (by decide) (by decide) (by decide) (by decide)
  have hreserved : decodeCommand false 0x14#8 = .reservedByte 0x14#8 :=
    (commandsDecodeByMatchMaskAndMode false 0x14#8).trans (by decide)
  exact ⟨decodeRequest_of_encode (by decide) rfl, decodeRequest_of_encode (by decide) rfl,
    decodeRequest_of_encode (by decide) rfl, decodeRequest_of_encode (by decide) rfl, hillegal,
    decodeCommand_of_encode rfl rfl, hreserved, decodeCommand_of_encode rfl rfl, decodeCommand_of_encode rfl rfl,
    decodeCommand_of_encode rfl rfl⟩

end Sys2Proof
end
